-- ==== Sys2Proof/Word.lean ====
section
/-! DEFINITION. The word types of the lsc_vm CORE: 16-bit words and addresses, 8-bit characters,
register numbers (spec/00_scope.md R4, R5; spec/10_state.md R10). -/

namespace Sys2Proof

/-- A register's contents, a memory cell, an address: 16 bits (R4 `XLEN`, `ALEN`). -/
abbrev Word := BitVec 16

/-- A character of the terminal: 8 bits (10_state.md R30). -/
abbrev Byte := BitVec 8

/-- A register number 0 to 7, naming `x[number]` (10_state.md R10, 30_encoding.md R74). -/
abbrev Reg := Fin 8

end Sys2Proof
end

