-- ==== Sys2Proof/Syntax.lean ====
section
/-! DEFINITION. The instructions: one constructor per row of spec/opcode_table.json, in the table's
order (spec/30_encoding.md R71 to R75). Bits the hardware ignores (R76) are no part of an
instruction, except in the rows that fault: there the fault record shows the whole word
(spec/10_state.md R23), so the constructor keeps them. -/

namespace Sys2Proof

/-- An instruction of the lsc_vm instruction set. -/
inductive Instr where
  /-- `BR[n][z][p] #PCoffset9` (R130). -/
  | br (n z p : Bool) (off9 : BitVec 9)
  /-- `ADD DR, SR1, SR2` (R120). -/
  | add (dr sr1 sr2 : Reg)
  /-- `ADD DR, SR1, #imm5` (R121). -/
  | addImm (dr sr1 : Reg) (imm5 : BitVec 5)
  /-- `LD DR, #PCoffset9` (R140). -/
  | ld (dr : Reg) (off9 : BitVec 9)
  /-- `ST SR, #PCoffset9` (R144). -/
  | st (sr : Reg) (off9 : BitVec 9)
  /-- `JSRR BaseR` (R134). -/
  | jsrr (baseR : Reg)
  /-- `JSR #PCoffset11` (R133). -/
  | jsr (off11 : BitVec 11)
  /-- `AND DR, SR1, SR2` (R122). -/
  | and (dr sr1 sr2 : Reg)
  /-- `AND DR, SR1, #imm5` (R123). -/
  | andImm (dr sr1 : Reg) (imm5 : BitVec 5)
  /-- `LDR DR, BaseR, #offset6` (R142). -/
  | ldr (dr baseR : Reg) (off6 : BitVec 6)
  /-- `STR SR, BaseR, #offset6` (R146). -/
  | str (sr baseR : Reg) (off6 : BitVec 6)
  /-- The undefined opcode RTI (R170); `low` is ir[11:0]. -/
  | rti (low : BitVec 12)
  /-- `NOT DR, SR` (R124). -/
  | not (dr sr : Reg)
  /-- `LDI DR, #PCoffset9` (R141). -/
  | ldi (dr : Reg) (off9 : BitVec 9)
  /-- `STI SR, #PCoffset9` (R145). -/
  | sti (sr : Reg) (off9 : BitVec 9)
  /-- `JMP BaseR`; `RET` is `JMP R7` (R131). -/
  | jmp (baseR : Reg)
  /-- The reserved opcode RES (R171); `low` is ir[11:0]. -/
  | res (low : BitVec 12)
  /-- `LEA DR, #PCoffset9` (R143). -/
  | lea (dr : Reg) (off9 : BitVec 9)
  /-- `TRAP x20` (R152). -/
  | getc
  /-- `TRAP x21` (R153). -/
  | out
  /-- `TRAP x22` (R154). -/
  | puts
  /-- `TRAP x23`, IN (R155). -/
  | inChar
  /-- `TRAP x24` (R156). -/
  | putsp
  /-- `TRAP x25` (R157). -/
  | halt
  /-- TRAP with an undefined vector 0x00 to 0x1F (R159); `high` is ir[11:8], `vec` ir[7:0]. -/
  | trapUndef001F (high : BitVec 4) (vec : BitVec 8)
  /-- TRAP with an undefined vector 0x26 or 0x27 (R159). -/
  | trapUndef2627 (high : BitVec 4) (vec : BitVec 8)
  /-- TRAP with an undefined vector 0x28 to 0x2F (R159). -/
  | trapUndef282F (high : BitVec 4) (vec : BitVec 8)
  /-- TRAP with an undefined vector 0x30 to 0x3F (R159). -/
  | trapUndef303F (high : BitVec 4) (vec : BitVec 8)
  /-- TRAP with an undefined vector 0x40 to 0x7F (R159). -/
  | trapUndef407F (high : BitVec 4) (vec : BitVec 8)
  /-- TRAP with an undefined vector 0x80 to 0xFF (R159). -/
  | trapUndef80FF (high : BitVec 4) (vec : BitVec 8)
deriving DecidableEq, Repr

/-- The instruction's row of spec/opcode_table.json, by the table's spelling. -/
def Instr.mnemonic : Instr → String
  | .br .. => "BR"
  | .add .. => "ADD"
  | .addImm .. => "ADD_imm"
  | .ld .. => "LD"
  | .st .. => "ST"
  | .jsrr .. => "JSRR"
  | .jsr .. => "JSR"
  | .and .. => "AND"
  | .andImm .. => "AND_imm"
  | .ldr .. => "LDR"
  | .str .. => "STR"
  | .rti .. => "RTI"
  | .not .. => "NOT"
  | .ldi .. => "LDI"
  | .sti .. => "STI"
  | .jmp .. => "JMP"
  | .res .. => "RES"
  | .lea .. => "LEA"
  | .getc => "GETC"
  | .out => "OUT"
  | .puts => "PUTS"
  | .inChar => "IN"
  | .putsp => "PUTSP"
  | .halt => "HALT"
  | .trapUndef001F .. => "TRAP_UNDEF_00_1F"
  | .trapUndef2627 .. => "TRAP_UNDEF_26_27"
  | .trapUndef282F .. => "TRAP_UNDEF_28_2F"
  | .trapUndef303F .. => "TRAP_UNDEF_30_3F"
  | .trapUndef407F .. => "TRAP_UNDEF_40_7F"
  | .trapUndef80FF .. => "TRAP_UNDEF_80_FF"

/-- The 16 opcodes that ir[15:12] selects among (30_encoding.md R72). -/
inductive Opcode where
  | br | add | ld | st | jsr | and | ldr | str | rti | not | ldi | sti | jmp | res | lea | trap
deriving DecidableEq, Repr

/-- The opcode of an instruction: the format row of 30_encoding.md R72 it belongs to. -/
def Instr.opcode : Instr → Opcode
  | .br .. => .br
  | .add .. | .addImm .. => .add
  | .ld .. => .ld
  | .st .. => .st
  | .jsr .. | .jsrr .. => .jsr
  | .and .. | .andImm .. => .and
  | .ldr .. => .ldr
  | .str .. => .str
  | .rti .. => .rti
  | .not .. => .not
  | .ldi .. => .ldi
  | .sti .. => .sti
  | .jmp .. => .jmp
  | .res .. => .res
  | .lea .. => .lea
  | .getc | .out | .puts | .inChar | .putsp | .halt => .trap
  | .trapUndef001F .. | .trapUndef2627 .. | .trapUndef282F .. => .trap
  | .trapUndef303F .. | .trapUndef407F .. | .trapUndef80FF .. => .trap

end Sys2Proof
end

