-- ==== Sys2Proof/WellFormed.lean ====
section
/-! DEFINITION. When a term of `Instr` is an instruction of the table. Every field has exactly the
width its encoding gives it, so the one thing to check is that an undefined trap vector lies in the
range of its own row (spec/30_encoding.md R73, R78). -/

namespace Sys2Proof

/-- The trap vector `vec` lies in the range `lo` to `hi` of a TRAP_UNDEF row (R73). -/
def vectorIn (lo hi vec : BitVec 8) : Bool := decide (lo ≤ vec ∧ vec ≤ hi)

/-- The well-formed instructions (R73, R78). -/
def Instr.wf : Instr → Bool
  | .trapUndef001F _ vec => vectorIn 0x00#8 0x1F#8 vec
  | .trapUndef2627 _ vec => vectorIn 0x26#8 0x27#8 vec
  | .trapUndef282F _ vec => vectorIn 0x28#8 0x2F#8 vec
  | .trapUndef303F _ vec => vectorIn 0x30#8 0x3F#8 vec
  | .trapUndef407F _ vec => vectorIn 0x40#8 0x7F#8 vec
  | .trapUndef80FF _ vec => vectorIn 0x80#8 0xFF#8 vec
  | .br .. | .add .. | .addImm .. | .ld .. | .st .. | .jsrr .. | .jsr .. | .and .. | .andImm ..
  | .ldr .. | .str .. | .rti .. | .not .. | .ldi .. | .sti .. | .jmp .. | .res .. | .lea ..
  | .getc | .out | .puts | .inChar | .putsp | .halt => true

end Sys2Proof
end

