-- ==== Sys2Proof/Decode.lean ====
section
/-! DEFINITION. The decoder and the encoder (spec/30_encoding.md R70 to R80). Decoding is a total
function of the 16-bit word and never fails (R73); a word whose execution faults decodes to the
instruction that faults. -/

namespace Sys2Proof

/-! ### The opcode map, one table -/

/-- The opcode map of R72. The number of BR is the source's; the other fifteen are the spec's
decision D1. -/
def opcodeTable : List (BitVec 4 × Opcode) :=
  [(0x0, .br), (0x1, .add), (0x2, .ld), (0x3, .st), (0x4, .jsr), (0x5, .and), (0x6, .ldr),
   (0x7, .str)] ++
  [(0x8, .rti), (0x9, .not), (0xA, .ldi), (0xB, .sti), (0xC, .jmp), (0xD, .res), (0xE, .lea),
   (0xF, .trap)]

/-- The opcode that a value of ir[15:12] selects (R72). -/
def opcodeOf (b : BitVec 4) : Opcode :=
  match opcodeTable.find? (fun e => e.1 == b) with
  | some e => e.2
  | none => .res

/-- The value of ir[15:12] that selects an opcode (R72). -/
def opcodeBits (o : Opcode) : BitVec 4 :=
  match opcodeTable.find? (fun e => e.2 == o) with
  | some e => e.1
  | none => 0xD#4

/-! ### The fields (R74, R75) -/

/-- ir[15:12]. -/
def opField (w : Word) : BitVec 4 := w.extractLsb' 12 4
/-- DR, and SR of the stores: ir[11:9] (R74). -/
def drField (w : Word) : Reg := (w.extractLsb' 9 3).toFin
/-- SR1, SR of NOT, and BaseR: ir[8:6] (R74). -/
def srField (w : Word) : Reg := (w.extractLsb' 6 3).toFin
/-- SR2: ir[2:0] (R74). -/
def sr2Field (w : Word) : Reg := (w.extractLsb' 0 3).toFin
/-- imm5: ir[4:0] (R75). -/
def imm5Field (w : Word) : BitVec 5 := w.extractLsb' 0 5
/-- offset6: ir[5:0] (R75). -/
def off6Field (w : Word) : BitVec 6 := w.extractLsb' 0 6
/-- PCoffset9: ir[8:0] (R75). -/
def off9Field (w : Word) : BitVec 9 := w.extractLsb' 0 9
/-- PCoffset11: ir[10:0] (R75). -/
def off11Field (w : Word) : BitVec 11 := w.extractLsb' 0 11
/-- trapvect8: ir[7:0] (R75). -/
def vecField (w : Word) : BitVec 8 := w.extractLsb' 0 8
/-- ir[11:8] of TRAP, ignored but recorded by a fault (R76, 10_state.md R23). -/
def highField (w : Word) : BitVec 4 := w.extractLsb' 8 4
/-- ir[11:0] of RTI and RES, ignored but recorded by a fault (R76, 10_state.md R23). -/
def lowField (w : Word) : BitVec 12 := w.extractLsb' 0 12

/-! ### The decoder -/

/-- The trap dispatch on trapvect8: six routines, and the six rows of undefined vectors (R73, R78). -/
def decodeTrap (high : BitVec 4) (vec : BitVec 8) : Instr :=
  if vec = 0x20#8 then .getc
  else if vec = 0x21#8 then .out
  else if vec = 0x22#8 then .puts
  else if vec = 0x23#8 then .inChar
  else if vec = 0x24#8 then .putsp
  else if vec = 0x25#8 then .halt
  else if vec ≤ 0x1F#8 then .trapUndef001F high vec
  else if vec ≤ 0x27#8 then .trapUndef2627 high vec
  else if vec ≤ 0x2F#8 then .trapUndef282F high vec
  else if vec ≤ 0x3F#8 then .trapUndef303F high vec
  else if vec ≤ 0x7F#8 then .trapUndef407F high vec
  else .trapUndef80FF high vec

/-- The decoder (R73): by ir[15:12], then ir[5] for ADD and AND, ir[11] for opcode 0x4, ir[7:0] for
TRAP; it looks at no other bit to choose. -/
def decode (w : Word) : Instr :=
  match opcodeOf (opField w) with
  | .br => .br (w.getLsbD 11) (w.getLsbD 10) (w.getLsbD 9) (off9Field w)
  | .add =>
    if w.getLsbD 5 then .addImm (drField w) (srField w) (imm5Field w)
    else .add (drField w) (srField w) (sr2Field w)
  | .ld => .ld (drField w) (off9Field w)
  | .st => .st (drField w) (off9Field w)
  | .jsr => if w.getLsbD 11 then .jsr (off11Field w) else .jsrr (srField w)
  | .and =>
    if w.getLsbD 5 then .andImm (drField w) (srField w) (imm5Field w)
    else .and (drField w) (srField w) (sr2Field w)
  | .ldr => .ldr (drField w) (srField w) (off6Field w)
  | .str => .str (drField w) (srField w) (off6Field w)
  | .rti => .rti (lowField w)
  | .not => .not (drField w) (srField w)
  | .ldi => .ldi (drField w) (off9Field w)
  | .sti => .sti (drField w) (off9Field w)
  | .jmp => .jmp (srField w)
  | .res => .res (lowField w)
  | .lea => .lea (drField w) (off9Field w)
  | .trap => decodeTrap (highField w) (vecField w)

/-- What the decoder reads from a row of spec/opcode_table.json: `nbits` bits `w`, every bit above
them zero. Every instruction is one 16-bit cell (R70), so a longer row is refused. -/
def decodeTableWord (nbits w : Nat) : Option Instr :=
  if nbits ≤ 16 ∧ w < 2 ^ nbits then some (decode (BitVec.ofNat 16 w)) else none

/-! ### The encoder, from the formats of R71 with the ignored bits as R80 writes them -/

/-- A register number as the three bits of a field (R74). -/
def regBits (r : Reg) : BitVec 3 := BitVec.ofFin r

/-- Formats RR: `op DR SR1 0 00 SR2` (R71, R80). -/
def encodeRR (o : Opcode) (d a b : Reg) : Word :=
  opcodeBits o ++ regBits d ++ regBits a ++ 0b000#3 ++ regBits b
/-- Format RI: `op DR SR1 1 imm5` (R71). -/
def encodeRI (o : Opcode) (d a : Reg) (i : BitVec 5) : Word :=
  opcodeBits o ++ regBits d ++ regBits a ++ 0b1#1 ++ i
/-- Format M9: `op reg PCoffset9` (R71). -/
def encodeM9 (o : Opcode) (r : Reg) (off : BitVec 9) : Word :=
  opcodeBits o ++ regBits r ++ off
/-- Format M6: `op reg BaseR offset6` (R71). -/
def encodeM6 (o : Opcode) (r b : Reg) (off : BitVec 6) : Word :=
  opcodeBits o ++ regBits r ++ regBits b ++ off
/-- Format T: `1111 ir[11:8] trapvect8` (R71). -/
def encodeT (high : BitVec 4) (vec : BitVec 8) : Word := opcodeBits .trap ++ high ++ vec
/-- Format U: `op ir[11:0]` (R71). -/
def encodeU (o : Opcode) (low : BitVec 12) : Word := opcodeBits o ++ low

/-- The encoder (R71, R80, R81). -/
def encode : Instr → Word
  | .br n z p off => opcodeBits .br ++ BitVec.ofBool n ++ BitVec.ofBool z ++ BitVec.ofBool p ++ off
  | .add d a b => encodeRR .add d a b
  | .addImm d a i => encodeRI .add d a i
  | .ld d off => encodeM9 .ld d off
  | .st r off => encodeM9 .st r off
  | .jsrr b => opcodeBits .jsr ++ 0b000#3 ++ regBits b ++ 0b000000#6
  | .jsr off => opcodeBits .jsr ++ 0b1#1 ++ off
  | .and d a b => encodeRR .and d a b
  | .andImm d a i => encodeRI .and d a i
  | .ldr d b off => encodeM6 .ldr d b off
  | .str r b off => encodeM6 .str r b off
  | .rti low => encodeU .rti low
  | .not d a => opcodeBits .not ++ regBits d ++ regBits a ++ 0b111111#6
  | .ldi d off => encodeM9 .ldi d off
  | .sti r off => encodeM9 .sti r off
  | .jmp b => opcodeBits .jmp ++ 0b000#3 ++ regBits b ++ 0b000000#6
  | .res low => encodeU .res low
  | .lea d off => encodeM9 .lea d off
  | .getc => encodeT 0x0#4 0x20#8
  | .out => encodeT 0x0#4 0x21#8
  | .puts => encodeT 0x0#4 0x22#8
  | .inChar => encodeT 0x0#4 0x23#8
  | .putsp => encodeT 0x0#4 0x24#8
  | .halt => encodeT 0x0#4 0x25#8
  | .trapUndef001F h v => encodeT h v
  | .trapUndef2627 h v => encodeT h v
  | .trapUndef282F h v => encodeT h v
  | .trapUndef303F h v => encodeT h v
  | .trapUndef407F h v => encodeT h v
  | .trapUndef80FF h v => encodeT h v

/-! ### The opcode table as data -/

/-- A row of spec/opcode_table.json: a word `w` belongs to it when `w AND mask = match` (R73). -/
structure TableRow where
  mnemonic : String
  mask : Word
  pattern : Word
deriving DecidableEq, Repr

/-- `w` belongs to the row (R73). -/
def TableRow.holds (r : TableRow) (w : Word) : Bool := w &&& r.mask == r.pattern

/-- The opcode rows of spec/opcode_table.json. -/
def opcodeRows : List TableRow :=
  [⟨"BR", 0xF000, 0x0000⟩, ⟨"ADD", 0xF020, 0x1000⟩, ⟨"ADD_imm", 0xF020, 0x1020⟩,
   ⟨"LD", 0xF000, 0x2000⟩, ⟨"ST", 0xF000, 0x3000⟩, ⟨"JSRR", 0xF800, 0x4000⟩,
   ⟨"JSR", 0xF800, 0x4800⟩, ⟨"AND", 0xF020, 0x5000⟩, ⟨"AND_imm", 0xF020, 0x5020⟩] ++
  [⟨"LDR", 0xF000, 0x6000⟩, ⟨"STR", 0xF000, 0x7000⟩, ⟨"RTI", 0xF000, 0x8000⟩,
   ⟨"NOT", 0xF000, 0x9000⟩, ⟨"LDI", 0xF000, 0xA000⟩, ⟨"STI", 0xF000, 0xB000⟩,
   ⟨"JMP", 0xF000, 0xC000⟩, ⟨"RES", 0xF000, 0xD000⟩, ⟨"LEA", 0xF000, 0xE000⟩]

/-- The trap rows of spec/opcode_table.json. -/
def trapRows : List TableRow :=
  [⟨"GETC", 0xF0FF, 0xF020⟩, ⟨"OUT", 0xF0FF, 0xF021⟩, ⟨"PUTS", 0xF0FF, 0xF022⟩,
   ⟨"IN", 0xF0FF, 0xF023⟩, ⟨"PUTSP", 0xF0FF, 0xF024⟩, ⟨"HALT", 0xF0FF, 0xF025⟩] ++
  [⟨"TRAP_UNDEF_00_1F", 0xF0E0, 0xF000⟩, ⟨"TRAP_UNDEF_26_27", 0xF0FE, 0xF026⟩,
   ⟨"TRAP_UNDEF_28_2F", 0xF0F8, 0xF028⟩, ⟨"TRAP_UNDEF_30_3F", 0xF0F0, 0xF030⟩,
   ⟨"TRAP_UNDEF_40_7F", 0xF0C0, 0xF040⟩, ⟨"TRAP_UNDEF_80_FF", 0xF080, 0xF080⟩]

/-- The 30 rows of spec/opcode_table.json (R73). -/
def tableRows : List TableRow := opcodeRows ++ trapRows

end Sys2Proof
end

