-- ==== Sys2Proof/Config.lean ====
section
/-! DEFINITION. The parameters of the hardware (spec/00_scope.md R4) and the two byte strings the
spec leaves open. -/

namespace Sys2Proof.Config

/-- `PC_START`: the program counter at reset (R4; 70_reset_and_hazards.md R202, decision D18). -/
def pcStart : Word := 0x3000#16

/-- `KBSR_ADDR`: the address of the keyboard status word (R4). -/
def kbsrAddr : Word := 0xFE00#16

/-- `KBDR_ADDR`: the address of the keyboard data word (R4). -/
def kbdrAddr : Word := 0xFE02#16

/-- `KBSR_READY_BIT`: the bit of the status word that says a key is available (R4, decision D8). -/
def kbsrReadyBit : Nat := 15

/-- `MEM_CELLS`: the number of memory cells (R4). -/
def memCells : Nat := 65536

/-- `IN_PROMPT`, OPEN (R4, decision D13): the bytes IN writes before it reads. No value is known,
so nothing can be proved of it (log 4). -/
opaque inPrompt : List Byte

/-- `HALT_MESSAGE`, OPEN (R4, decision D14): the bytes HALT writes. No value is known, so nothing
can be proved of it (log 4). -/
opaque haltMessage : List Byte

end Sys2Proof.Config
end

