-- ==== Sys2Proof/Machine/State.lean ====
section
/-! DEFINITION. The state of the machine as plain data, the reasons a step has no next state, and
the state after reset (spec/10_state.md R10 to R35). -/

namespace Sys2Proof.Machine

/-- The condition flags: exactly one of three is set at every moment (R18), so the register is held
as a three-valued type, which R19 allows. Its three bits are `Flag.bits`. -/
inductive Flag where
  /-- POSITIVE. -/
  | pos
  /-- ZERO. -/
  | zero
  /-- NEGATIVE. -/
  | neg
deriving DecidableEq, Repr

/-- What the fault record can hold: the cause, the address the instruction was fetched from and its
16-bit word (R23, 60_exceptions.md R181). -/
inductive FaultRecord where
  /-- RTI or RES was executed (R170, R171). -/
  | illegalOpcode (addr ir : Word)
  /-- TRAP with a vector outside 0x20 to 0x25 was executed (R159). -/
  | undefinedTrapVector (addr ir : Word)
deriving DecidableEq, Repr

/-- `MEM` (R25): the cells that do not hold 0x0000, as (address, cell) pairs with addresses strictly
rising. The unit is the 16-bit cell, the only unit the hardware has (20_memory.md R40, R50; log 1).
An unlisted address reads as 0x0000, its reset contents (R35). -/
abbrev Memory := List (Nat × Word)

/-- The machine's state. -/
structure State where
  /-- The general registers `x[0]` to `x[7]` (R10). -/
  x : Vector Word 8
  /-- The program counter: the address of the next instruction to fetch; inside an instruction's
  meaning, that of the instruction plus 1 (R14, R15). -/
  pc : Word
  /-- The condition flags (R18). -/
  cond : Flag
  /-- The run flag: true is RUNNING, false is HALTED (R22). -/
  run : Bool
  /-- The fault record; `none` is the spec's own value (R23). -/
  fault : Option FaultRecord
  /-- `MEM` (R25). -/
  mem : Memory
  /-- The keyboard data latch `kb_data`, the last character the CORE took (R27). -/
  kbData : Byte
  /-- `TermIn`, the characters the terminal has ready, head first (R30). -/
  termIn : List Byte
  /-- `TermOut`, the characters the CORE has written since reset, in order (R32). -/
  termOut : List Byte
  /-- How many `TermRestore()` events the CORE has sent: R33 lets a model record them (log 3). -/
  termRestores : Nat
deriving DecidableEq, Repr

/-- Why the machine takes no step (or, for `stringHang`, why a step does not end). None of them is
the spec's fault record, which is state: see `FaultRecord`. All are safe: the machine has no step
in the same cases (log 5). -/
inductive Fault where
  /-- Raised by `step` when `run` = 0: the machine is HALTED (R24, R101). Safe. -/
  | halted
  /-- Raised by `step` when a fault is recorded: the machine is faulted (R24, R101). Safe. -/
  | faulted
  /-- Raised by GETC and IN when no character is available: the CORE is blocked and has no step
  until the environment appends one (R102, R158). Safe. -/
  | blocked
  /-- Raised by PUTS and PUTSP when the string has no end: the routine hangs inside its step
  (R154, R156, U11). The fuel covers every string, so it is never raised (log 6). Safe. -/
  | stringHang
deriving DecidableEq, Repr

/-- No meaning for the instruction. -/
inductive Refusal where
  /-- Raised by `exec` for an instruction without a meaning; no arm raises it now. Safe. -/
  | notModelled (mnemonic : String)
deriving DecidableEq, Repr

/-- The state after reset, before any image is loaded (R35, R201). `termIn` is the environment's and
empty here (log 2); `termRestores` is the model's own count (log 3). -/
def State.reset : State where
  x := Vector.replicate 8 0x0000#16
  pc := Config.pcStart
  cond := .zero
  run := true
  fault := none
  mem := []
  kbData := 0x00#8
  termIn := []
  termOut := []
  termRestores := 0

end Sys2Proof.Machine
end

