-- ==== Sys2Proof/Machine/Ops.lean ====
section
/-! DEFINITION. The operations the meanings share: registers, memory cells, `MemRead` and
`MemWrite`, the terminal, the fetch, and `raise` (spec/10_state.md, 20_memory.md,
60_exceptions.md R183). There is no return from an exception (R187). -/

namespace Sys2Proof.Machine

/-! ### Bytes and words -/

/-- `zext_16` of a character (00_scope.md R5). -/
def zext16 (c : Byte) : Word := c.setWidth 16

/-- Bits 7 to 0 of a word. -/
def loByte (w : Word) : Byte := w.extractLsb' 0 8

/-- Bits 15 to 8 of a word. -/
def hiByte (w : Word) : Byte := w.extractLsb' 8 8

/-! ### Memory cells (20_memory.md R40, R44, R45) -/

/-- The cell an unlisted address holds: 0x0000 (10_state.md R35). -/
def Memory.unlisted : Word := 0x0000#16

/-- The cell at the key `k`. -/
def Memory.lookup (k : Nat) : Memory → Word
  | [] => Memory.unlisted
  | (a, v) :: rest => if a = k then v else Memory.lookup k rest

/-- `MEM[a]`. -/
def Memory.read (m : Memory) (a : Word) : Word := Memory.lookup a.toNat m

/-- The memory without an entry at the key `k`. -/
def Memory.erase (k : Nat) : Memory → Memory
  | [] => []
  | (a, v) :: rest => if a = k then Memory.erase k rest else (a, v) :: Memory.erase k rest

/-- The memory with an entry `(k, v)` put before the first larger key. -/
def Memory.insert (k : Nat) (v : Word) : Memory → Memory
  | [] => [(k, v)]
  | (a, w) :: rest => if k < a then (k, v) :: (a, w) :: rest else (a, w) :: Memory.insert k v rest

/-- `MEM[a] <- v`, keeping the canonical form: the value an unlisted address holds is not listed. -/
def Memory.write (m : Memory) (a v : Word) : Memory :=
  if v = Memory.unlisted then Memory.erase a.toNat m
  else Memory.insert a.toNat v (Memory.erase a.toNat m)

/-- Every key is at least `lo`, below `MEM_CELLS`, and larger than the one before it, and no entry
holds what an unlisted address holds. -/
def Memory.wfFrom (lo : Nat) : Memory → Bool
  | [] => true
  | (a, v) :: rest =>
    decide (lo ≤ a ∧ a < Config.memCells ∧ v ≠ Memory.unlisted) && Memory.wfFrom (a + 1) rest

/-- The canonical form of memory. -/
def Memory.wf (m : Memory) : Bool := Memory.wfFrom 0 m

/-! ### Registers and the other fields -/

/-- `x[i]` (10_state.md R10). -/
def State.reg (s : State) (i : Reg) : Word := s.x[i.val]

/-- `x[i] <- v`; no register is hard-wired (R11). -/
def State.setReg (i : Reg) (v : Word) (s : State) : State := { s with x := s.x.set i.val v i.isLt }

/-- `pc <- t` (R14). -/
def State.setPc (t : Word) (s : State) : State := { s with pc := t }

/-- `cond <- f` (R18). -/
def State.setCond (f : Flag) (s : State) : State := { s with cond := f }

/-- `MemWrite(a, 16, v)` (20_memory.md R45, R47): the cell is written, at the two keyboard addresses
too, and nothing else changes. -/
def memWrite (a v : Word) (s : State) : State := { s with mem := s.mem.write a v }

/-! ### The terminal (10_state.md R30 to R33) -/

/-- `TermAvail()` (R30). -/
def termAvail (s : State) : Bool := !s.termIn.isEmpty

/-- `TermRead()` with the latch: takes the head of `TermIn` and loads `kb_data` with it, as every
taker of a character does (R27, R31); `none` when no character is available. -/
def takeKey (s : State) : Option (Byte × State) :=
  match s.termIn with
  | [] => none
  | c :: rest => some (c, { s with termIn := rest, kbData := c })

/-- `TermWrite(c)` (R32). -/
def termWrite (c : Byte) (s : State) : State := { s with termOut := s.termOut ++ [c] }

/-- `TermWrite` of each byte in order (R155, R157). -/
def termWriteAll (bs : List Byte) (s : State) : State := { s with termOut := s.termOut ++ bs }

/-- `TermRestore()` (R33): an event, recorded by counting it (log 3). -/
def termRestore (s : State) : State := { s with termRestores := s.termRestores + 1 }

/-- The environment appends a character to `TermIn`, between steps (R30, R192). -/
def State.appendKey (c : Byte) (s : State) : State := { s with termIn := s.termIn ++ [c] }

/-! ### `MemRead` (20_memory.md R44) -/

/-- The keyboard status word: READY is `TermAvail()`, the other bits read as 0 (10_state.md R26). -/
def kbsrWord (s : State) : Word :=
  if termAvail s then 1#16 <<< Config.kbsrReadyBit else 0x0000#16

/-- The read of the keyboard data word (R46): takes the key if there is one, and returns `kb_data`. -/
def readKbdr (s : State) : Word × State :=
  match takeKey s with
  | some (c, t) => (zext16 c, t)
  | none => (zext16 s.kbData, s)

/-- `MemRead(a, 16)` (R44). -/
def memRead (a : Word) (s : State) : Word × State :=
  if a = Config.kbsrAddr then (kbsrWord s, s)
  else if a = Config.kbdrAddr then readKbdr s
  else (s.mem.read a, s)

/-! ### Fetch and faults -/

/-- The fetch: `ir = MemRead(pc)`, then `pc <- pc + 1` modulo 2^16 (40_step_and_utilities.md R101). -/
def fetch (s : State) : Word × State :=
  let r := memRead s.pc s
  (r.1, r.2.setPc (r.2.pc + 1#16))

/-- The address the instruction in progress was fetched from: `pc` - 1 modulo 2^16
(60_exceptions.md R181). -/
def fetchedFrom (s : State) : Word := s.pc - 1#16

/-- `raise F`: the fault is recorded and nothing else changes; `run` stays as it is (R183). -/
def raise (f : FaultRecord) (s : State) : State := { s with fault := some f }

end Sys2Proof.Machine
end

