-- ==== Sys2Proof/Machine/Flags.lean ====
section
/-! DEFINITION. The condition flags: their bits (spec/10_state.md R19), the flag update `SetCC`
(spec/40_step_and_utilities.md R105) and the branch condition (spec/42_control.md R130). -/

namespace Sys2Proof.Machine

/-- The three bits of `cond`: bit 0 = P, bit 1 = Z, bit 2 = N (R19, decision D2). -/
def Flag.bits : Flag → BitVec 3
  | .pos => 0b001#3
  | .zero => 0b010#3
  | .neg => 0b100#3

/-- The flag of a value: Z for 0x0000, N when bit 15 is 1, P otherwise (R105). -/
def flagOf (v : Word) : Flag :=
  if v = 0x0000#16 then .zero else if v.getLsbD 15 then .neg else .pos

/-- `SetCC(i)`: sets `cond` from the current `x[i]` (R105). -/
def setCC (i : Reg) (s : State) : State := s.setCond (flagOf (s.reg i))

/-- `x[DR] <- v`, then `SetCC(DR)`: the end of the seven flag-setting opcodes (R106). -/
def writeResult (d : Reg) (v : Word) (s : State) : State := setCC d (s.setReg d v)

/-- The condition mask ir[11:9], n above z above p (R130). -/
def condMask (n z p : Bool) : BitVec 3 := BitVec.ofBool n ++ BitVec.ofBool z ++ BitVec.ofBool p

/-- The branch condition: `(mask & cond) != 0` (R130). -/
def branchTaken (n z p : Bool) (c : Flag) : Bool := condMask n z p &&& c.bits != 0b000#3

end Sys2Proof.Machine
end

