-- ==== Sys2Proof/Machine/Operands.lean ====
section
/-! DEFINITION. The operand forms: sign extension (spec/40_step_and_utilities.md R104) and the three
addressing modes (spec/43_load_store.md R147). -/

namespace Sys2Proof.Machine

/-- `sext_16` of a field of width `b` (R104): when its top bit is 1, the bits from `b` up are set;
otherwise the field is returned unchanged. -/
def sext16 {b : Nat} (f : BitVec b) : Word :=
  if f.msb then f.setWidth 16 ||| (0xFFFF#16 <<< b) else f.setWidth 16

/-- The PC-relative address with PCoffset9, from the incremented pc (R147). -/
def pcRel9 (off : BitVec 9) (s : State) : Word := s.pc + sext16 off

/-- The PC-relative address with PCoffset11, from the incremented pc (42_control.md R133). -/
def pcRel11 (off : BitVec 11) (s : State) : Word := s.pc + sext16 off

/-- The base plus offset address (R147). -/
def baseOff6 (r : Reg) (off : BitVec 6) (s : State) : Word := s.reg r + sext16 off

/-- The indirect address: one `MemRead` of the pointer cell, which can have device behaviour
(R147, R148). -/
def indirect9 (off : BitVec 9) (s : State) : Word × State := memRead (pcRel9 off s) s

end Sys2Proof.Machine
end

