-- ==== Sys2Proof/Machine/Alu.lean ====
section
/-! DEFINITION. ADD, AND and NOT (spec/41_alu.md R120 to R125). All arithmetic is 16-bit addition
modulo 2^16; nothing faults. In every meaning `pc` is already incremented and is left alone. -/

namespace Sys2Proof.Machine

/-- ADD, register form (R120). Both sources are read before DR is written. -/
def execAdd (d a b : Reg) (s : State) : Host.Outcome State Fault Refusal :=
  .next (writeResult d (s.reg a + s.reg b) s)

/-- ADD, immediate form (R121). -/
def execAddImm (d a : Reg) (imm : BitVec 5) (s : State) : Host.Outcome State Fault Refusal :=
  .next (writeResult d (s.reg a + sext16 imm) s)

/-- AND, register form (R122). -/
def execAnd (d a b : Reg) (s : State) : Host.Outcome State Fault Refusal :=
  .next (writeResult d (s.reg a &&& s.reg b) s)

/-- AND, immediate form (R123). -/
def execAndImm (d a : Reg) (imm : BitVec 5) (s : State) : Host.Outcome State Fault Refusal :=
  .next (writeResult d (s.reg a &&& sext16 imm) s)

/-- NOT (R124). -/
def execNot (d a : Reg) (s : State) : Host.Outcome State Fault Refusal :=
  .next (writeResult d (~~~(s.reg a)) s)

end Sys2Proof.Machine
end

