-- ==== Sys2Proof/Machine/Control.lean ====
section
/-! DEFINITION. BR, JMP, JSR and JSRR (spec/42_control.md R130 to R136). `pc` is the incremented pc.
None sets the flags; there is no delay slot (R135). -/

namespace Sys2Proof.Machine

/-- BR (R130). -/
def execBr (n z p : Bool) (off : BitVec 9) (s : State) : Host.Outcome State Fault Refusal :=
  .next (if branchTaken n z p s.cond then s.setPc (pcRel9 off s) else s)

/-- JMP; RET is `JMP R7` (R131). -/
def execJmp (b : Reg) (s : State) : Host.Outcome State Fault Refusal :=
  .next (s.setPc (s.reg b))

/-- `x[7] <- pc`, the return address, before the jump of JSR and JSRR (R132). -/
def linkR7 (s : State) : State := s.setReg 7 s.pc

/-- JSR (R133). -/
def execJsr (off : BitVec 11) (s : State) : Host.Outcome State Fault Refusal :=
  .next ((linkR7 s).setPc (pcRel11 off s))

/-- JSRR (R134, decision D17): the base register is read after `x[7]` is written, so `JSRR R7`
continues at the next instruction. -/
def execJsrr (b : Reg) (s : State) : Host.Outcome State Fault Refusal :=
  .next ((linkR7 s).setPc ((linkR7 s).reg b))

end Sys2Proof.Machine
end

