-- ==== Sys2Proof/Machine/LoadStore.lean ====
section
/-! DEFINITION. LD, LDI, LDR, LEA, ST, STI and STR (spec/43_load_store.md R140 to R148). `pc` is the
incremented pc and is left alone. Every data read is a `MemRead`, so a keyboard address has device
behaviour in a load and as a pointer (R148). -/

namespace Sys2Proof.Machine

/-- `x[DR] <- MemRead(ea)`, then `SetCC(DR)`: the end of LD, LDI and LDR. -/
def loadFrom (d : Reg) (ea : Word) (s : State) : State :=
  let r := memRead ea s
  writeResult d r.1 r.2

/-- LD (R140). -/
def execLd (d : Reg) (off : BitVec 9) (s : State) : Host.Outcome State Fault Refusal :=
  .next (loadFrom d (pcRel9 off s) s)

/-- LDI (R141): the pointer is read first, then the data. -/
def execLdi (d : Reg) (off : BitVec 9) (s : State) : Host.Outcome State Fault Refusal :=
  let p := indirect9 off s
  .next (loadFrom d p.1 p.2)

/-- LDR (R142). -/
def execLdr (d b : Reg) (off : BitVec 6) (s : State) : Host.Outcome State Fault Refusal :=
  .next (loadFrom d (baseOff6 b off s) s)

/-- LEA (R143): the address itself; the flags ARE set, and memory is not read. -/
def execLea (d : Reg) (off : BitVec 9) (s : State) : Host.Outcome State Fault Refusal :=
  .next (writeResult d (pcRel9 off s) s)

/-- ST (R144). -/
def execSt (r : Reg) (off : BitVec 9) (s : State) : Host.Outcome State Fault Refusal :=
  .next (memWrite (pcRel9 off s) (s.reg r) s)

/-- STI (R145): one read of the pointer, then one write. -/
def execSti (r : Reg) (off : BitVec 9) (s : State) : Host.Outcome State Fault Refusal :=
  let p := indirect9 off s
  .next (memWrite p.1 (p.2.reg r) p.2)

/-- STR (R146). -/
def execStr (r b : Reg) (off : BitVec 6) (s : State) : Host.Outcome State Fault Refusal :=
  .next (memWrite (baseOff6 b off s) (s.reg r) s)

end Sys2Proof.Machine
end

