-- ==== Sys2Proof/Machine/Reserved.lean ====
section
/-! DEFINITION. The undefined opcodes RTI and RES (spec/45_reserved.md R170, R171, decision D3): each
raises `IllegalOpcode(A, ir)` and the machine takes no further step. -/

namespace Sys2Proof.Machine

/-- `raise IllegalOpcode(A, ir)`. -/
def raiseIllegalOpcode (ir : Word) (s : State) : State :=
  raise (.illegalOpcode (fetchedFrom s) ir) s

/-- RTI (R170). -/
def execRti (low : BitVec 12) (s : State) : Host.Outcome State Fault Refusal :=
  .next (raiseIllegalOpcode (encode (.rti low)) s)

/-- RES (R171). -/
def execRes (low : BitVec 12) (s : State) : Host.Outcome State Fault Refusal :=
  .next (raiseIllegalOpcode (encode (.res low)) s)

end Sys2Proof.Machine
end

