-- ==== Sys2Proof/Machine/Trap.lean ====
section
/-! DEFINITION. TRAP: the six routines built into the hardware, and the undefined vectors
(spec/44_trap.md R150 to R160). A routine runs to its end inside the step; none writes `cond`, R7,
`pc` or memory (R160). -/

namespace Sys2Proof.Machine

/-- The character enters `x[0]`, zero-extended (R152, R155). -/
def keyToR0 (c : Byte) (s : State) : State := s.setReg 0 (zext16 c)

/-- GETC, vector 0x20 (R152); blocked when no character is available (R158). -/
def execGetc (s : State) : Host.Outcome State Fault Refusal :=
  match takeKey s with
  | none => .fault .blocked
  | some (c, t) => .next (keyToR0 c t)

/-- OUT, vector 0x21 (R153). -/
def execOut (s : State) : Host.Outcome State Fault Refusal :=
  .next (termWrite (loByte (s.reg 0)) s)

/-- One lap of the 65,536 addresses for each character waiting, and one more. -/
def lapFuel : List Byte → Nat
  | [] => Config.memCells
  | _ :: rest => lapFuel rest + Config.memCells

/-- How many cells a string routine may read. A string that passes the status word with `TermIn`
empty reads 0x0000 there and ends, and each lap of the addresses takes a key at the data word, so
this many cells are never exhausted (log 6). -/
def stringFuel (s : State) : Nat := lapFuel s.termIn

/-- The loop of PUTS, one cell a round (R154); `none` when the fuel runs out. -/
def putsLoop : Nat → Word → State → Option State
  | 0, _, _ => none
  | n + 1, a, s =>
    let r := memRead a s
    if r.1 = 0x0000#16 then some r.2
    else putsLoop n (a + 1#16) (termWrite (loByte r.1) r.2)

/-- The loop of PUTSP, one cell of two characters a round (R156); `none` when the fuel runs out. -/
def putspLoop : Nat → Word → State → Option State
  | 0, _, _ => none
  | n + 1, a, s =>
    let r := memRead a s
    if loByte r.1 = 0x00#8 then some r.2
    else if hiByte r.1 = 0x00#8 then some (termWrite (loByte r.1) r.2)
    else putspLoop n (a + 1#16) (termWrite (hiByte r.1) (termWrite (loByte r.1) r.2))

/-- The outcome of a string routine: a string without an end is a hang (U11). -/
def stringOutcome : Option State → Host.Outcome State Fault Refusal
  | some t => .next t
  | none => .fault .stringHang

/-- PUTS, vector 0x22 (R154). -/
def execPuts (s : State) : Host.Outcome State Fault Refusal :=
  stringOutcome (putsLoop (stringFuel s) (s.reg 0) s)

/-- IN, vector 0x23 (R155): prompt, then the character, its echo and R0; blocked when no character
is available, and then the prompt is not written either (R158). -/
def execIn (s : State) : Host.Outcome State Fault Refusal :=
  match takeKey (termWriteAll Config.inPrompt s) with
  | none => .fault .blocked
  | some (c, t) => .next (keyToR0 c (termWrite c t))

/-- PUTSP, vector 0x24 (R156). -/
def execPutsp (s : State) : Host.Outcome State Fault Refusal :=
  stringOutcome (putspLoop (stringFuel s) (s.reg 0) s)

/-- `run <- 0` (R157). -/
def clearRun (s : State) : State := { s with run := false }

/-- HALT, vector 0x25 (R157). -/
def execHalt (s : State) : Host.Outcome State Fault Refusal :=
  .next (clearRun (termRestore (termWriteAll Config.haltMessage s)))

/-- TRAP with an undefined vector raises `UndefinedTrapVector(A, ir)` (R159, decision D4). -/
def raiseUndefinedVector (ir : Word) (s : State) : State :=
  raise (.undefinedTrapVector (fetchedFrom s) ir) s

/-- TRAP with a vector 0x00 to 0x1F (R159). -/
def execTrapUndef001F (high : BitVec 4) (vec : BitVec 8) (s : State) : Host.Outcome State Fault Refusal :=
  .next (raiseUndefinedVector (encode (.trapUndef001F high vec)) s)

/-- TRAP with a vector 0x26 or 0x27 (R159). -/
def execTrapUndef2627 (high : BitVec 4) (vec : BitVec 8) (s : State) : Host.Outcome State Fault Refusal :=
  .next (raiseUndefinedVector (encode (.trapUndef2627 high vec)) s)

/-- TRAP with a vector 0x28 to 0x2F (R159). -/
def execTrapUndef282F (high : BitVec 4) (vec : BitVec 8) (s : State) : Host.Outcome State Fault Refusal :=
  .next (raiseUndefinedVector (encode (.trapUndef282F high vec)) s)

/-- TRAP with a vector 0x30 to 0x3F (R159). -/
def execTrapUndef303F (high : BitVec 4) (vec : BitVec 8) (s : State) : Host.Outcome State Fault Refusal :=
  .next (raiseUndefinedVector (encode (.trapUndef303F high vec)) s)

/-- TRAP with a vector 0x40 to 0x7F (R159). -/
def execTrapUndef407F (high : BitVec 4) (vec : BitVec 8) (s : State) : Host.Outcome State Fault Refusal :=
  .next (raiseUndefinedVector (encode (.trapUndef407F high vec)) s)

/-- TRAP with a vector 0x80 to 0xFF (R159). -/
def execTrapUndef80FF (high : BitVec 4) (vec : BitVec 8) (s : State) : Host.Outcome State Fault Refusal :=
  .next (raiseUndefinedVector (encode (.trapUndef80FF high vec)) s)

end Sys2Proof.Machine
end

