-- ==== Sys2Proof/Machine/Dispatch.lean ====
section
/-! DEFINITION. The dispatch: one arm per instruction, each one call of its meaning. The state is the
one after the fetch, with `pc` incremented (spec/10_state.md R15). -/

namespace Sys2Proof.Machine

def exec (i : Instr) (s : State) : Host.Outcome State Fault Refusal :=
  match i with
  | .br n z p off => Sys2Proof.Machine.execBr n z p off s
  | .add d a b => Sys2Proof.Machine.execAdd d a b s
  | .addImm d a imm => Sys2Proof.Machine.execAddImm d a imm s
  | .ld d off => Sys2Proof.Machine.execLd d off s
  | .st r off => Sys2Proof.Machine.execSt r off s
  | .jsrr b => Sys2Proof.Machine.execJsrr b s
  | .jsr off => Sys2Proof.Machine.execJsr off s
  | .and d a b => Sys2Proof.Machine.execAnd d a b s
  | .andImm d a imm => Sys2Proof.Machine.execAndImm d a imm s
  | .ldr d b off => Sys2Proof.Machine.execLdr d b off s
  | .str r b off => Sys2Proof.Machine.execStr r b off s
  | .rti low => Sys2Proof.Machine.execRti low s
  | .not d a => Sys2Proof.Machine.execNot d a s
  | .ldi d off => Sys2Proof.Machine.execLdi d off s
  | .sti r off => Sys2Proof.Machine.execSti r off s
  | .jmp b => Sys2Proof.Machine.execJmp b s
  | .res low => Sys2Proof.Machine.execRes low s
  | .lea d off => Sys2Proof.Machine.execLea d off s
  | .getc => Sys2Proof.Machine.execGetc s
  | .out => Sys2Proof.Machine.execOut s
  | .puts => Sys2Proof.Machine.execPuts s
  | .inChar => Sys2Proof.Machine.execIn s
  | .putsp => Sys2Proof.Machine.execPutsp s
  | .halt => Sys2Proof.Machine.execHalt s
  | .trapUndef001F high vec => Sys2Proof.Machine.execTrapUndef001F high vec s
  | .trapUndef2627 high vec => Sys2Proof.Machine.execTrapUndef2627 high vec s
  | .trapUndef282F high vec => Sys2Proof.Machine.execTrapUndef282F high vec s
  | .trapUndef303F high vec => Sys2Proof.Machine.execTrapUndef303F high vec s
  | .trapUndef407F high vec => Sys2Proof.Machine.execTrapUndef407F high vec s
  | .trapUndef80FF high vec => Sys2Proof.Machine.execTrapUndef80FF high vec s

end Sys2Proof.Machine
end

