-- ==== Sys2Proof/Machine/Loader.lean ====
section
/-! DEFINITION. How a program comes into memory before the first step: the image format and its
loading (spec/70_reset_and_hazards.md R203 to R206), and the placing of one word for a single step
(log 7). The loader is outside the CORE; it fixes the start state. -/

namespace Sys2Proof.Machine

/-- An image: its origin and its words (R203). -/
structure Image where
  origin : Word
  words : List Word
deriving DecidableEq, Repr

/-- Why nothing is loaded, so that the CORE never takes a step (R205). -/
inductive LoadError where
  /-- No image was given (R205). -/
  | noImage
  /-- The file ends before the origin word is complete (R205). -/
  | truncated
  /-- A single byte is left after the last word: not in the source, refused (R203, U15; log 8). -/
  | trailingByte
deriving DecidableEq, Repr

/-- Big-endian 16-bit words: of each pair the first byte is bits 15 to 8 (R203). -/
def parseWords : List Byte → Except LoadError (List Word)
  | [] => .ok []
  | [_] => .error .trailingByte
  | hi :: lo :: rest => (parseWords rest).map (fun ws => (hi ++ lo) :: ws)

/-- The image a file's bytes mean: the origin, then the words (R203). -/
def parseImage : List Byte → Except LoadError Image
  | hi :: lo :: rest => (parseWords rest).map (fun ws => ⟨hi ++ lo, ws⟩)
  | _ => .error .truncated

/-- The words are written in order from the address `a` on, which wraps (R204). -/
def loadWords : List Word → Word → State → State
  | [], _, s => s
  | w :: ws, a, s => loadWords ws (a + 1#16) (memWrite a w s)

/-- Loading one image writes its words from its origin on and changes nothing else, `pc` least of
all (R204, R206). -/
def loadImage (i : Image) (s : State) : State := loadWords i.words i.origin s

/-- Loading the files in order (R204, decision D25); a file that fails stops it (R205). -/
def loadFiles : List (List Byte) → State → Except LoadError State
  | [], s => .ok s
  | f :: fs, s =>
    match parseImage f with
    | .ok i => loadFiles fs (loadImage i s)
    | .error e => .error e

/-- The start state of a run: reset, then every image loaded; an error when the CORE never takes a
step (R103, R205). -/
def boot (files : List (List Byte)) : Except LoadError State :=
  match files with
  | [] => .error .noImage
  | _ => loadFiles files State.reset

/-- The instruction waits for a character before its step is enabled (44_trap.md R158). -/
def needsKey (i : Instr) : Bool := i == .getc || i == .inChar

/-- The word `w` stored at `pc`. Where the instruction it stands for has no step for want of a
character, the environment's append of one stands beside it (R30, R102; log 7). -/
def placeWord (w : Word) (s : State) : State :=
  let t := memWrite s.pc w s
  if needsKey (decode w) && !termAvail t then t.appendKey 0x61#8 else t

end Sys2Proof.Machine
end

