-- ==== Sys2Proof/Machine/Step.lean ====
section
/-! DEFINITION. One step of the machine (spec/40_step_and_utilities.md R100 to R102), and the placing
of one instruction where the next step fetches it. -/

namespace Sys2Proof.Machine

/-- One step (R101): fetch, increment, decode, execute, all atomic. A machine that is HALTED or
faulted has no step (10_state.md R24), and neither has a blocked one, whose GETC or IN finds no
character (R102, R158): the outcome carries no state, so nothing of the fetch is kept. -/
def step (s : State) : Host.Outcome State Fault Refusal :=
  if s.fault.isSome then .fault .faulted
  else if s.run then
    let f := fetch s
    exec (decode f.1) f.2
  else .fault .halted

/-- The instruction `w` of `nbits` bits, the bits above them zero, placed so that the next step of a
running machine fetches and runs it (log 7). Every instruction is one cell (30_encoding.md R70). -/
def State.withFetchWord (s : State) (nbits w : Nat) : State :=
  placeWord (BitVec.ofNat 16 (w % 2 ^ nbits)) s

end Sys2Proof.Machine
end

