-- ==== Sys2Proof/Safety.lean ====
section
/-! DEFINITION. What counts as a safe run, in the terms the statements use: the conditions of the
machine, the invariant, runs with the environment's appends, the string routines as the spec's
loops without fuel, and the vocabulary of the frames (spec/10_state.md R18 to R24,
40_step_and_utilities.md R100 to R106, 44_trap.md R154 to R158). -/

namespace Sys2Proof.Machine

/-! ### The conditions of the machine -/

/-- RUNNING: `run` = 1 and `fault` = none (R100). -/
abbrev Running (s : State) : Prop := s.run = true ∧ s.fault = none

/-- Blocked (R158): `pc` is neither keyboard address, `MEM[pc]` is a TRAP word with vector 0x20 or
0x23, and `TermIn` is empty. No side effect is needed to test it. -/
abbrev Blocked (s : State) : Prop :=
  s.pc ≠ Config.kbsrAddr ∧ s.pc ≠ Config.kbdrAddr ∧
    (s.mem.read s.pc).extractLsb' 12 4 = 0xF#4 ∧
    ((s.mem.read s.pc).extractLsb' 0 8 = 0x20#8 ∨ (s.mem.read s.pc).extractLsb' 0 8 = 0x23#8) ∧
    s.termIn = []

/-- A run has ended well: the HALT trap was executed (R103). -/
abbrev EndedWell (s : State) : Prop := s.run = false

/-- A run has ended badly: a fault is recorded (R103). A safe run never meets such a state. -/
abbrev EndedBadly (s : State) : Prop := s.fault ≠ none

/-- The invariant: memory has its canonical form, and a machine with a fault recorded still has
`run` = 1, so that no state is both HALTED and faulted (R183). -/
structure Inv (s : State) : Prop where
  memory : s.mem.wf = true
  oneEnd : s.fault ≠ none → s.run = true

/-! ### Runs (R103, R192) -/

/-- `t` is reached from `s` by steps of the machine and appends of the environment between them. -/
inductive Reach : State → State → Prop where
  | refl (s : State) : Reach s s
  | step {s t u : State} : Reach s t → step t = .next u → Reach s u
  | key {s t : State} (c : Byte) : Reach s t → Reach s (t.appendKey c)

/-! ### The string routines as the spec writes them, without fuel -/

/-- The loop of PUTS from the address `a` in the state `s` ends in `t` (R154). -/
inductive PutsEnds : Word → State → State → Prop where
  | stop {a : Word} {s : State} :
      (memRead a s).1 = 0x0000#16 → PutsEnds a s (memRead a s).2
  | char {a : Word} {s t : State} :
      (memRead a s).1 ≠ 0x0000#16 →
      PutsEnds (a + 1#16) (termWrite (loByte (memRead a s).1) (memRead a s).2) t → PutsEnds a s t

/-- The loop of PUTSP from the address `a` in the state `s` ends in `t` (R156). -/
inductive PutspEnds : Word → State → State → Prop where
  | stopLow {a : Word} {s : State} :
      loByte (memRead a s).1 = 0x00#8 → PutspEnds a s (memRead a s).2
  | stopHigh {a : Word} {s : State} :
      loByte (memRead a s).1 ≠ 0x00#8 → hiByte (memRead a s).1 = 0x00#8 →
      PutspEnds a s (termWrite (loByte (memRead a s).1) (memRead a s).2)
  | chars {a : Word} {s t : State} :
      loByte (memRead a s).1 ≠ 0x00#8 → hiByte (memRead a s).1 ≠ 0x00#8 →
      PutspEnds (a + 1#16)
        (termWrite (hiByte (memRead a s).1) (termWrite (loByte (memRead a s).1) (memRead a s).2)) t →
      PutspEnds a s t

/-! ### The vocabulary of the frames -/

/-- The flag is the one R105 gives the value. -/
def FlagMatches (v : Word) (c : Flag) : Prop :=
  (c = .zero ↔ v = 0x0000#16) ∧ (c = .neg ↔ v.getLsbD 15 = true) ∧
    (c = .pos ↔ v ≠ 0x0000#16 ∧ v.getLsbD 15 = false)

/-- Every register but those listed is unchanged. -/
def RegsBut (ds : List Reg) (s t : State) : Prop := ∀ r : Reg, r ∉ ds → t.reg r = s.reg r

/-- Every cell of memory but those listed is unchanged. -/
def CellsBut (as : List Word) (s t : State) : Prop :=
  ∀ a : Word, a ∉ as → t.mem.read a = s.mem.read a

/-- The keyboard's state is unchanged: `TermIn` and the data latch. -/
def SameKeyboard (s t : State) : Prop := t.termIn = s.termIn ∧ t.kbData = s.kbData

/-- The output is unchanged: `TermOut` and the `TermRestore` events. -/
def SameOutput (s t : State) : Prop :=
  t.termOut = s.termOut ∧ t.termRestores = s.termRestores

/-- The run flag and the fault record are unchanged. -/
def SameControl (s t : State) : Prop := t.run = s.run ∧ t.fault = s.fault

/-- What a flag-setting instruction with destination `d` and result `v` does: `x[d]` and the flag,
and all else but the keyboard's state unchanged (R20, R105, R106). -/
structure SetsRegister (d : Reg) (v : Word) (s t : State) : Prop where
  result : t.reg d = v
  flag : FlagMatches v t.cond
  regs : RegsBut [d] s t
  pc : t.pc = s.pc
  control : SameControl s t
  cells : CellsBut [] s t
  output : SameOutput s t

/-- What a control transfer to `target` does that writes the listed registers: `pc`, and all else
but those registers unchanged. -/
structure Transfers (target : Word) (ds : List Reg) (s t : State) : Prop where
  pc : t.pc = target
  flag : t.cond = s.cond
  regs : RegsBut ds s t
  control : SameControl s t
  cells : CellsBut [] s t
  keyboard : SameKeyboard s t
  output : SameOutput s t

/-- What a store of `v` to the address `a` does: that cell, and all else but the keyboard's state
unchanged (20_memory.md R45). -/
structure Stores (a v : Word) (s t : State) : Prop where
  cell : t.mem.read a = v
  cells : CellsBut [a] s t
  regs : RegsBut [] s t
  flag : t.cond = s.cond
  pc : t.pc = s.pc
  control : SameControl s t
  output : SameOutput s t

/-- What the trap routines share (44_trap.md R160): but for the listed registers, the output, the
keyboard's state and `run`, nothing changes. -/
structure RoutineFrame (ds : List Reg) (s t : State) : Prop where
  regs : RegsBut ds s t
  flag : t.cond = s.cond
  pc : t.pc = s.pc
  cells : CellsBut [] s t
  fault : t.fault = s.fault

/-- `pc` after the instruction `i` fetched with the registers and flags of `s`, whose incremented pc
is `npc`: the table of 10_state.md R17. -/
def pcAfter (i : Instr) (npc : Word) (s : State) : Word :=
  match i with
  | .br n z p off => if branchTaken n z p s.cond then npc + sext16 off else npc
  | .jmp b => s.reg b
  | .jsr off => npc + sext16 off
  | .jsrr b => if b = 7 then npc else s.reg b
  | .add .. | .addImm .. | .ld .. | .st .. | .and .. | .andImm .. | .ldr .. | .str .. | .rti _ => npc
  | .not .. | .ldi .. | .sti .. | .res _ | .lea .. => npc
  | .getc | .out | .puts | .inChar | .putsp | .halt => npc
  | .trapUndef001F .. | .trapUndef2627 .. | .trapUndef282F .. => npc
  | .trapUndef303F .. | .trapUndef407F .. | .trapUndef80FF .. => npc

/-- The two states differ at most in the cells `MEM[0xFE00]` and `MEM[0xFE02]` (20_memory.md R47). -/
structure AgreeOffKeyboard (s u : State) : Prop where
  x : u.x = s.x
  pc : u.pc = s.pc
  cond : u.cond = s.cond
  run : u.run = s.run
  fault : u.fault = s.fault
  kbData : u.kbData = s.kbData
  termIn : u.termIn = s.termIn
  termOut : u.termOut = s.termOut
  termRestores : u.termRestores = s.termRestores
  cells : CellsBut [Config.kbsrAddr, Config.kbdrAddr] s u

end Sys2Proof.Machine

namespace Sys2Proof

open Machine

/-- The register an instruction writes, if any (10_state.md R12, R13). -/
def Instr.destination : Instr → Option Reg
  | .add d _ _ | .addImm d _ _ | .and d _ _ | .andImm d _ _ | .not d _ => some d
  | .ld d _ | .ldi d _ | .ldr d _ _ | .lea d _ => some d
  | .jsr _ | .jsrr _ => some 7
  | .getc | .inChar => some 0
  | .br .. | .jmp _ | .st .. | .sti .. | .str .. | .rti _ | .res _ | .out | .puts | .putsp | .halt => none
  | .trapUndef001F .. | .trapUndef2627 .. | .trapUndef282F .. => none
  | .trapUndef303F .. | .trapUndef407F .. | .trapUndef80FF .. => none

/-- The destination of the instructions that write `cond`: the seven opcodes ADD, AND, NOT, LD,
LDI, LDR, LEA (R20, R106). -/
def Instr.flagDestination : Instr → Option Reg
  | .add d _ _ | .addImm d _ _ | .and d _ _ | .andImm d _ _ | .not d _ => some d
  | .ld d _ | .ldi d _ | .ldr d _ _ | .lea d _ => some d
  | .br .. | .jmp _ | .jsr _ | .jsrr _ | .st .. | .sti .. | .str .. | .rti _ | .res _ => none
  | .getc | .out | .puts | .inChar | .putsp | .halt => none
  | .trapUndef001F .. | .trapUndef2627 .. | .trapUndef282F .. => none
  | .trapUndef303F .. | .trapUndef407F .. | .trapUndef80FF .. => none

/-- The address a store writes, computed as its meaning computes it in the state `s` after the fetch
(R144, R145, R146). -/
def Instr.storeAddress (s : State) : Instr → Option Word
  | .st _ off => some (pcRel9 off s)
  | .sti _ off => some (indirect9 off s).1
  | .str _ b off => some (baseOff6 b off s)
  | .br .. | .add .. | .addImm .. | .ld .. | .jsrr _ | .jsr _ | .and .. | .andImm .. | .ldr .. => none
  | .rti _ | .not .. | .ldi .. | .jmp _ | .res _ | .lea .. => none
  | .getc | .out | .puts | .inChar | .putsp | .halt => none
  | .trapUndef001F .. | .trapUndef2627 .. | .trapUndef282F .. => none
  | .trapUndef303F .. | .trapUndef407F .. | .trapUndef80FF .. => none

/-- The address a load reads its data from, computed as its meaning computes it in the state `s`
after the fetch: for LDI, what its pointer read returns (R140, R141, R142). -/
def Instr.loadAddress (s : State) : Instr → Option Word
  | .ld _ off => some (pcRel9 off s)
  | .ldi _ off => some (indirect9 off s).1
  | .ldr _ b off => some (baseOff6 b off s)
  | .br .. | .add .. | .addImm .. | .st .. | .jsrr _ | .jsr _ | .and .. | .andImm .. | .str .. => none
  | .rti _ | .not .. | .sti .. | .jmp _ | .res _ | .lea .. => none
  | .getc | .out | .puts | .inChar | .putsp | .halt => none
  | .trapUndef001F .. | .trapUndef2627 .. | .trapUndef282F .. => none
  | .trapUndef303F .. | .trapUndef407F .. | .trapUndef80FF .. => none

end Sys2Proof
end

