-- ==== Sys2Proof/Certificates/Slice0/Obligations.lean ====
section
/-! DEFINITION. The statements for the provers, each a `def Obligations.<Name> : Prop`. In a
statement about `exec` the state `s` is the one after the fetch: `s.pc` is the incremented pc, the
instruction's address plus 1 (spec/10_state.md R15). Fields of an instruction word are written as
slices of the word, as the spec writes them. -/

open Sys2Proof Sys2Proof.Machine

/-! ## Encoding -/

/-- Decode and encode agree, for every well-formed instruction and every operand value
(30_encoding.md R71, R74, R75, R80). The opcode numbers are decision D1. -/
def Obligations.DecodeOfEncodeIsIdentity : Prop :=
  ∀ i : Instr, i.wf = true → decode (encode i) = i

/-- Every word belongs to exactly one of the 30 rows of the opcode table, the row whose name the
decoded instruction has, and decodes to a well-formed instruction (30_encoding.md R73). The opcode
numbers are decision D1. -/
def Obligations.EveryWordBelongsToExactlyOneTableRow : Prop :=
  tableRows.length = 30 ∧
  ∀ w : Word, (decode w).wf = true ∧
    ∃ r ∈ tableRows, r.holds w = true ∧ r.mnemonic = (decode w).mnemonic ∧
      ∀ q ∈ tableRows, q.holds w = true → q = r

/-- The ignored bits of 30_encoding.md R76 (decision D5) do not change what a word decodes to:
ir[4:3] of ADD and AND in register form, ir[5:0] of NOT, ir[11:9] and ir[5:0] of JMP, ir[10:9] and
ir[5:0] of JSRR, ir[11:8] of TRAP with a defined vector. The words that fault keep theirs, since the
fault record shows the whole word (log 10): ir[11:0] of RTI and RES, and ir[11:8] of TRAP with an
undefined vector, where it leaves the row of the table as it is. -/
def Obligations.IgnoredBitsDoNotChangeDecoding : Prop :=
  ∀ w v : Word,
    ((w.extractLsb' 12 4 = 0x1#4 ∨ w.extractLsb' 12 4 = 0x5#4) → w.getLsbD 5 = false →
      v &&& 0xFFE7#16 = w &&& 0xFFE7#16 → decode v = decode w) ∧
    (w.extractLsb' 12 4 = 0x9#4 → v &&& 0xFFC0#16 = w &&& 0xFFC0#16 → decode v = decode w) ∧
    (w.extractLsb' 12 4 = 0xC#4 → v &&& 0xF1C0#16 = w &&& 0xF1C0#16 → decode v = decode w) ∧
    (w.extractLsb' 11 5 = 0b01000#5 → v &&& 0xF9C0#16 = w &&& 0xF9C0#16 → decode v = decode w) ∧
    (w.extractLsb' 12 4 = 0xF#4 → 0x20#8 ≤ w.extractLsb' 0 8 → w.extractLsb' 0 8 ≤ 0x25#8 →
      v &&& 0xF0FF#16 = w &&& 0xF0FF#16 → decode v = decode w) ∧
    (w.extractLsb' 12 4 = 0x8#4 → decode w = .rti (w.extractLsb' 0 12)) ∧
    (w.extractLsb' 12 4 = 0xD#4 → decode w = .res (w.extractLsb' 0 12)) ∧
    (w.extractLsb' 12 4 = 0xF#4 → w.extractLsb' 0 8 < 0x20#8 ∨ 0x25#8 < w.extractLsb' 0 8 →
      encode (decode w) = w ∧
      (v &&& 0xF0FF#16 = w &&& 0xF0FF#16 → (decode v).mnemonic = (decode w).mnemonic))

/-- Words written out from the encodings decode to what they stand for (95_test_vectors.md 2.3 to
2.9; the opcode numbers are decision D1). -/
def Obligations.SpecExampleWordsDecode : Prop :=
  decode 0x0000#16 = .br false false false 0#9 ∧ decode 0x09FD#16 = .br true false false 0x1FD#9 ∧
  decode 0x14C4#16 = .add 2 3 4 ∧ decode 0x1236#16 = .addImm 1 0 0b10110#5 ∧
  decode 0x1FDF#16 = .add 7 7 7 ∧ decode 0x54C4#16 = .and 2 3 4 ∧
  decode 0x5020#16 = .andImm 0 0 0#5 ∧ decode 0x92BF#16 = .not 1 2 ∧
  decode 0x4807#16 = .jsr 7#11 ∧ decode 0x47FF#16 = .jsrr 7 ∧ decode 0xC1C0#16 = .jmp 7 ∧
  decode 0x2407#16 = .ld 2 7#9 ∧ decode 0xA404#16 = .ldi 2 4#9 ∧
  decode 0x697F#16 = .ldr 4 5 0x3F#6 ∧ decode 0xE20B#16 = .lea 1 11#9 ∧
  decode 0x3002#16 = .st 0 2#9 ∧ decode 0xB005#16 = .sti 0 5#9 ∧ decode 0x7043#16 = .str 0 1 3#6 ∧
  decode 0xFA25#16 = .halt ∧ decode 0x8ABC#16 = .rti 0xABC#12 ∧ decode 0xDFFF#16 = .res 0xFFF#12 ∧
  decode 0xF01F#16 = .trapUndef001F 0x0#4 0x1F#8 ∧ decode 0xF026#16 = .trapUndef2627 0x0#4 0x26#8

/-! ## The step -/

/-- R101: while the machine is RUNNING, one step reads the cell at `pc` by `MemRead`, adds 1 to `pc`
modulo 2^16 and executes the instruction the word decodes to; a machine that is not RUNNING has no
step. -/
def Obligations.StepFetchesAdvancesAndExecutes : Prop :=
  ∀ s : State,
    (Running s → step s =
      exec (decode (memRead s.pc s).1) ((memRead s.pc s).2.setPc (s.pc + 1#16))) ∧
    (¬ Running s → ∀ t, step s ≠ .next t)

/-- The machine has a step exactly when it is RUNNING and not blocked (R24, R100, R102, R158). The
blocked case is decision D12. That no string routine hangs is part of the claim; it is DEDUCED from
decision D9 in log 6. -/
def Obligations.StepEnabledExactlyWhenRunningAndNotBlocked : Prop :=
  ∀ s : State, (∃ t, step s = .next t) ↔ Running s ∧ ¬ Blocked s

/-- The step stops with `blocked` exactly in the condition of 44_trap.md R158 (decision D12), which
is tested on `MEM[pc]` without a side effect. -/
def Obligations.BlockedExactlyWhenInputTrapLacksCharacter : Prop :=
  ∀ s : State, step s = .fault .blocked ↔ Running s ∧ Blocked s

/-- A character the environment appends lifts the blocked condition: the whole step is enabled and
takes it (44_trap.md R152, R155, R158; 60_exceptions.md R191; decisions D7, D12). -/
def Obligations.AppendedCharacterUnblocks : Prop :=
  ∀ (s : State) (c : Byte), Running s → Blocked s →
    ∃ t, step (s.appendKey c) = .next t ∧ t.reg 0 = c.setWidth 16 ∧ t.kbData = c ∧ t.termIn = [] ∧
      t.pc = s.pc + 1#16 ∧ t.cond = s.cond ∧ RegsBut [0] s t ∧ CellsBut [] s t ∧ SameControl s t ∧
      t.termRestores = s.termRestores

/-- Once the machine is HALTED or faulted no state changes again, whatever the environment appends
to `TermIn` (10_state.md R24, 40_step_and_utilities.md R100; the fault record is decision D11). -/
def Obligations.StoppedMachineOnlyGainsInput : Prop :=
  ∀ s t : State, Reach s t → ¬ Running s → ∃ keys, t = { s with termIn := s.termIn ++ keys }

/-- The invariant is kept by every step, from every state that meets it: memory stays in its
canonical form, the model's choice of log 1, and a fault is recorded only with `run` = 1
(60_exceptions.md R183, decision D11). -/
def Obligations.StepKeepsInvariant : Prop :=
  ∀ s t : State, Inv s → step s = .next t → Inv t

/-- The state after reset meets the invariant (its canonical form of memory is the model's, log 1). -/
def Obligations.ResetMeetsInvariant : Prop := Inv State.reset

/-- Every state of every run meets the invariant: whatever images are loaded, whatever the
environment appends and however long the run is (R103, R204). The canonical form of memory is the
model's choice (log 1), the fault clause rests on decision D11. -/
def Obligations.EveryRunFromBootKeepsInvariant : Prop :=
  ∀ (files : List (List Byte)) (s t : State), boot files = .ok s → Reach s t → Inv t

/-- The reset values of 10_state.md R35: registers, cells, `pc` (decision D18), `cond`, and `run`,
`fault`, `kb_data`, `TermOut` (decisions D11, D19). The environment's `TermIn` is left out. -/
def Obligations.ResetValues : Prop :=
  (∀ r : Reg, State.reset.reg r = 0x0000#16) ∧ State.reset.pc = 0x3000#16 ∧
  State.reset.cond = .zero ∧ (∀ a : Word, State.reset.mem.read a = 0x0000#16) ∧
  State.reset.run = true ∧ State.reset.fault = none ∧ State.reset.kbData = 0x00#8 ∧
  State.reset.termOut = []

/-! ## Memory -/

/-- `MemRead` (20_memory.md R44, R46; decisions D7, D8, D9): the status word says whether a key is
available and changes nothing; the data word takes a key when there is one and else returns the
last one; every other address returns its cell and changes nothing. -/
def Obligations.MemReadDecodesKeyboardAddresses : Prop :=
  ∀ s : State,
    memRead 0xFE00#16 s = (if s.termIn = [] then 0x0000#16 else 0x8000#16, s) ∧
    (∀ c rest, s.termIn = c :: rest →
      memRead 0xFE02#16 s = (c.setWidth 16, { s with termIn := rest, kbData := c })) ∧
    (s.termIn = [] → memRead 0xFE02#16 s = (s.kbData.setWidth 16, s)) ∧
    (∀ a : Word, a ≠ 0xFE00#16 → a ≠ 0xFE02#16 → memRead a s = (s.mem.read a, s))

/-- R45: `MemWrite` sets the one cell and changes nothing else, at every address. -/
def Obligations.MemWriteChangesOneCell : Prop :=
  ∀ (a v : Word) (s : State),
    (memWrite a v s).mem.read a = v ∧ CellsBut [a] s (memWrite a v s) ∧
    ∃ m, memWrite a v s = { s with mem := m }

/-- Equal memories are equal data: two canonical memories with the same 65,536 cells are one list
(20_memory.md section 1; the form is the model's, log 1). -/
def Obligations.CanonicalMemoriesWithSameCellsAreEqual : Prop :=
  ∀ m n : Memory, m.wf = true → n.wf = true → (∀ a : Word, m.read a = n.read a) → m = n

/-- Only ST, STI and STR change memory, each only the cell at the address its meaning computes
(20_memory.md sections 2 and 3). -/
def Obligations.OnlyStoresChangeMemory : Prop :=
  ∀ (i : Instr) (s t : State), exec i s = .next t →
    ∀ a : Word, i.storeAddress s ≠ some a → t.mem.read a = s.mem.read a

/-- A word stored over the very next cell to be fetched is the word that executes, with nothing
needed in between (20_memory.md section 10). The keyboard addresses are left out: a fetch there
returns the device word (decisions D9, D10). -/
def Obligations.StoredWordIsFetchedNext : Prop :=
  ∀ (i : Instr) (r : Reg) (s t : State),
    (∃ off, i = .st r off) ∨ (∃ off, i = .sti r off) ∨ (∃ b off, i = .str r b off) →
    Running s → exec i s = .next t → i.storeAddress s = some t.pc →
    t.pc ≠ 0xFE00#16 → t.pc ≠ 0xFE02#16 →
    step t = exec (decode (s.reg r)) (t.setPc (t.pc + 1#16))

/-- A load after a store to the same address sees the stored value (20_memory.md section 9): after a
ST, STI or STR at `a`, every LD, LDI or LDR that reads its data at `a`, with nothing stored in
between, completes with the stored value, whatever else of the state has changed. At the keyboard
addresses it does not (decisions D9, D10). -/
def Obligations.LoadAfterStoreSeesStoredValue : Prop :=
  ∀ (i j : Instr) (r d : Reg) (a : Word) (s t m : State),
    (∃ off, i = .st r off) ∨ (∃ off, i = .sti r off) ∨ (∃ b off, i = .str r b off) →
    exec i s = .next t → i.storeAddress s = some a → m.mem = t.mem →
    j.loadAddress m = some a → j.destination = some d →
    a ≠ 0xFE00#16 → a ≠ 0xFE02#16 →
    ∃ u, exec j m = .next u ∧ u.reg d = s.reg r

/-- The CORE can never read back what is stored at 0xFE00 and 0xFE02 (20_memory.md R47, decisions
D9, D10): of two machines that differ at most in those two cells, each steps when the other does,
to states that again differ at most there, and each stops for the same reason as the other. -/
def Obligations.KeyboardCellsAreNeverReadBack : Prop :=
  ∀ s u : State, AgreeOffKeyboard s u →
    (∀ t, step s = .next t → ∃ v, step u = .next v ∧ AgreeOffKeyboard t v) ∧
    (∀ f, step s = .fault f → step u = .fault f)

/-! ## Sign extension and the flag update -/

/-- R104: for a field of width b, 0 < b <= 16, `sext_16` sets the bits from b up when bit b - 1 is 1
and returns the field unchanged otherwise; it keeps the two's-complement meaning and the low b
bits; and the worked values. -/
def Obligations.SignExtensionFollowsRule : Prop :=
  (∀ (b : Nat) (f : BitVec b), 0 < b → b ≤ 16 →
    (f.getLsbD (b - 1) = true → sext16 f = f.setWidth 16 ||| (0xFFFF#16 <<< b)) ∧
    (f.getLsbD (b - 1) = false → sext16 f = f.setWidth 16) ∧
    (sext16 f).toInt = f.toInt ∧ (sext16 f).setWidth b = f) ∧
  sext16 0b10110#5 = 0xFFF6#16 ∧ sext16 0b01111#5 = 0x000F#16 ∧ sext16 0x1FD#9 = 0xFFFD#16 ∧
  sext16 0x400#11 = 0xFC00#16 ∧ sext16 0x20#6 = 0xFFE0#16

/-- R105: `SetCC(i)` sets exactly one flag from the current `x[i]`: Z for 0x0000, N when bit 15 is 1,
P otherwise; and changes nothing else. -/
def Obligations.SetCCSetsExactlyOneFlag : Prop :=
  ∀ (i : Reg) (s : State), FlagMatches (s.reg i) (setCC i s).cond ∧
    setCC i s = { s with cond := (setCC i s).cond }

/-- R20: `cond` is written by exactly the seven opcodes ADD, AND, NOT, LD, LDI, LDR, LEA, each from
its destination register after the register is written; no other instruction and no fault writes
it. -/
def Obligations.OnlySevenOpcodesWriteCond : Prop :=
  ∀ (i : Instr) (s t : State), exec i s = .next t →
    (∀ d, i.flagDestination = some d → FlagMatches (t.reg d) t.cond) ∧
    (i.flagDestination = none → t.cond = s.cond)

/-! ## Arithmetic and bitwise instructions -/

/-- R120, R121: both forms of ADD, their encoding, their result for every operand and state, and the
agreement of the two forms. -/
def Obligations.AddResult : Prop :=
  (∀ w : Word, w.extractLsb' 12 4 = 0x1#4 → w.getLsbD 5 = false → decode w =
    .add (w.extractLsb' 9 3).toFin (w.extractLsb' 6 3).toFin (w.extractLsb' 0 3).toFin) ∧
  (∀ w : Word, w.extractLsb' 12 4 = 0x1#4 → w.getLsbD 5 = true → decode w =
    .addImm (w.extractLsb' 9 3).toFin (w.extractLsb' 6 3).toFin (w.extractLsb' 0 5)) ∧
  (∀ (d a b : Reg) (s : State), ∃ t, exec (.add d a b) s = .next t ∧
    SetsRegister d (s.reg a + s.reg b) s t ∧ SameKeyboard s t) ∧
  (∀ (d a : Reg) (imm : BitVec 5) (s : State), ∃ t, exec (.addImm d a imm) s = .next t ∧
    SetsRegister d (s.reg a + sext16 imm) s t ∧ SameKeyboard s t) ∧
  (∀ (d a b : Reg) (imm : BitVec 5) (s : State), s.reg b = sext16 imm →
    exec (.addImm d a imm) s = exec (.add d a b) s)

/-- R122, R123: both forms of AND, their encoding and their result for every operand and state. -/
def Obligations.AndResult : Prop :=
  (∀ w : Word, w.extractLsb' 12 4 = 0x5#4 → w.getLsbD 5 = false → decode w =
    .and (w.extractLsb' 9 3).toFin (w.extractLsb' 6 3).toFin (w.extractLsb' 0 3).toFin) ∧
  (∀ w : Word, w.extractLsb' 12 4 = 0x5#4 → w.getLsbD 5 = true → decode w =
    .andImm (w.extractLsb' 9 3).toFin (w.extractLsb' 6 3).toFin (w.extractLsb' 0 5)) ∧
  (∀ (d a b : Reg) (s : State), ∃ t, exec (.and d a b) s = .next t ∧
    SetsRegister d (s.reg a &&& s.reg b) s t ∧ SameKeyboard s t) ∧
  (∀ (d a : Reg) (imm : BitVec 5) (s : State), ∃ t, exec (.andImm d a imm) s = .next t ∧
    SetsRegister d (s.reg a &&& sext16 imm) s t ∧ SameKeyboard s t)

/-- R124: NOT, its encoding and its result, 0xFFFF - x[SR]. -/
def Obligations.NotResult : Prop :=
  (∀ w : Word, w.extractLsb' 12 4 = 0x9#4 → decode w =
    .not (w.extractLsb' 9 3).toFin (w.extractLsb' 6 3).toFin) ∧
  (∀ (d a : Reg) (s : State), ∃ t, exec (.not d a) s = .next t ∧
    SetsRegister d (0xFFFF#16 - s.reg a) s t ∧ SameKeyboard s t)

/-! ## Control transfers -/

/-- R130: BR, its encoding; the branch goes to the incremented pc plus the sign-extended offset when
`ir[11:9] & cond` is not zero, and to the next instruction otherwise. The bits of `cond` are those
of R19. -/
def Obligations.BranchResult : Prop :=
  (∀ w : Word, w.extractLsb' 12 4 = 0x0#4 → decode w =
    .br (w.getLsbD 11) (w.getLsbD 10) (w.getLsbD 9) (w.extractLsb' 0 9)) ∧
  (∀ (n z p : Bool) (off : BitVec 9) (s : State), ∃ t, exec (.br n z p off) s = .next t ∧
    ((BitVec.ofBool n ++ BitVec.ofBool z ++ BitVec.ofBool p) &&& s.cond.bits ≠ 0#3 →
      Transfers (s.pc + sext16 off) [] s t) ∧
    ((BitVec.ofBool n ++ BitVec.ofBool z ++ BitVec.ofBool p) &&& s.cond.bits = 0#3 →
      Transfers s.pc [] s t))

/-- Which flag a mask bit tests (10_state.md R19, decision D2): n tests NEGATIVE, z tests ZERO, p
tests POSITIVE; so every word 0x0000 to 0x01FF is a no-operation and mask 111 is always taken
(30_encoding.md section 4). -/
def Obligations.BranchMaskTestsItsFlags : Prop :=
  (∀ (n z p : Bool) (off : BitVec 9) (s : State),
    exec (.br n z p off) s = .next
      (if (n = true ∧ s.cond = .neg) ∨ (z = true ∧ s.cond = .zero) ∨ (p = true ∧ s.cond = .pos)
        then { s with pc := s.pc + sext16 off } else s)) ∧
  (∀ (w : Word) (s : State), w ≤ 0x01FF#16 → exec (decode w) s = .next s) ∧
  (∀ (off : BitVec 9) (s : State),
    exec (.br true true true off) s = .next { s with pc := s.pc + sext16 off })

/-- R131: JMP, its encoding and its effect; RET is JMP R7. -/
def Obligations.JumpResult : Prop :=
  (∀ w : Word, w.extractLsb' 12 4 = 0xC#4 → decode w = .jmp (w.extractLsb' 6 3).toFin) ∧
  decode 0xC1C0#16 = .jmp 7 ∧
  (∀ (b : Reg) (s : State), ∃ t, exec (.jmp b) s = .next t ∧ Transfers (s.reg b) [] s t)

/-- R133: JSR, its encoding and its effect. -/
def Obligations.JsrResult : Prop :=
  (∀ w : Word, w.extractLsb' 12 4 = 0x4#4 → w.getLsbD 11 = true →
    decode w = .jsr (w.extractLsb' 0 11)) ∧
  (∀ (off : BitVec 11) (s : State), ∃ t, exec (.jsr off) s = .next t ∧
    t.reg 7 = s.pc ∧ Transfers (s.pc + sext16 off) [7] s t)

/-- 42_control.md R134 (decision D17: the order as written): JSRR writes x[7] first and then reads
the base register, so JSRR R7 continues at the next instruction. -/
def Obligations.JsrrResult : Prop :=
  (∀ w : Word, w.extractLsb' 12 4 = 0x4#4 → w.getLsbD 11 = false →
    decode w = .jsrr (w.extractLsb' 6 3).toFin) ∧
  (∀ (b : Reg) (s : State), ∃ t, exec (.jsrr b) s = .next t ∧ t.reg 7 = s.pc ∧
    (b ≠ 7 → Transfers (s.reg b) [7] s t) ∧ (b = 7 → Transfers s.pc [7] s t))

/-- R132: JSR and JSRR share opcode 0100 and ir[11] chooses; both leave the incremented pc in R7, and
a later JMP through R7 returns there. -/
def Obligations.CallThenReturn : Prop :=
  (∀ w : Word, w.extractLsb' 12 4 = 0x4#4 →
    (w.getLsbD 11 = true → ∃ off, decode w = .jsr off) ∧
    (w.getLsbD 11 = false → ∃ b, decode w = .jsrr b)) ∧
  ∀ (i : Instr) (s : State), (∃ off, i = .jsr off) ∨ (∃ b, i = .jsrr b) →
    ∃ t, exec i s = .next t ∧ t.reg 7 = s.pc ∧
      ∀ u : State, u.reg 7 = t.reg 7 → exec (.jmp 7) u = .next { u with pc := s.pc }

/-! ## Loads, stores and LEA -/

/-- R140: LD, its encoding and its effect; the keyboard's state is what its one `MemRead` leaves. -/
def Obligations.LdResult : Prop :=
  (∀ w : Word, w.extractLsb' 12 4 = 0x2#4 →
    decode w = .ld (w.extractLsb' 9 3).toFin (w.extractLsb' 0 9)) ∧
  (∀ (d : Reg) (off : BitVec 9) (s : State), ∃ t, exec (.ld d off) s = .next t ∧
    SetsRegister d (memRead (s.pc + sext16 off) s).1 s t ∧
    SameKeyboard (memRead (s.pc + sext16 off) s).2 t)

/-- R141: LDI, its encoding and its effect: the pointer is read first, then the data. -/
def Obligations.LdiResult : Prop :=
  (∀ w : Word, w.extractLsb' 12 4 = 0xA#4 →
    decode w = .ldi (w.extractLsb' 9 3).toFin (w.extractLsb' 0 9)) ∧
  (∀ (d : Reg) (off : BitVec 9) (s : State), ∃ t, exec (.ldi d off) s = .next t ∧
    let pointer := memRead (s.pc + sext16 off) s
    let data := memRead pointer.1 pointer.2
    SetsRegister d data.1 s t ∧ SameKeyboard data.2 t)

/-- R142: LDR, its encoding and its effect; the base register is read before DR is written. -/
def Obligations.LdrResult : Prop :=
  (∀ w : Word, w.extractLsb' 12 4 = 0x6#4 →
    decode w = .ldr (w.extractLsb' 9 3).toFin (w.extractLsb' 6 3).toFin (w.extractLsb' 0 6)) ∧
  (∀ (d b : Reg) (off : BitVec 6) (s : State), ∃ t, exec (.ldr d b off) s = .next t ∧
    SetsRegister d (memRead (s.reg b + sext16 off) s).1 s t ∧
    SameKeyboard (memRead (s.reg b + sext16 off) s).2 t)

/-- R143: LEA, its encoding and its effect: the address itself, flags set, memory not accessed. -/
def Obligations.LeaResult : Prop :=
  (∀ w : Word, w.extractLsb' 12 4 = 0xE#4 →
    decode w = .lea (w.extractLsb' 9 3).toFin (w.extractLsb' 0 9)) ∧
  (∀ (d : Reg) (off : BitVec 9) (s : State), ∃ t, exec (.lea d off) s = .next t ∧
    SetsRegister d (s.pc + sext16 off) s t ∧ SameKeyboard s t)

/-- R144: ST, its encoding and its effect; every cell but the one stored to reads as before. -/
def Obligations.StResult : Prop :=
  (∀ w : Word, w.extractLsb' 12 4 = 0x3#4 →
    decode w = .st (w.extractLsb' 9 3).toFin (w.extractLsb' 0 9)) ∧
  (∀ (r : Reg) (off : BitVec 9) (s : State), ∃ t, exec (.st r off) s = .next t ∧
    Stores (s.pc + sext16 off) (s.reg r) s t ∧ SameKeyboard s t)

/-- R145: STI, its encoding and its effect: one read of the pointer, then one write at the address
it holds; the keyboard's state is what the pointer's `MemRead` leaves. -/
def Obligations.StiResult : Prop :=
  (∀ w : Word, w.extractLsb' 12 4 = 0xB#4 →
    decode w = .sti (w.extractLsb' 9 3).toFin (w.extractLsb' 0 9)) ∧
  (∀ (r : Reg) (off : BitVec 9) (s : State), ∃ t, exec (.sti r off) s = .next t ∧
    let pointer := memRead (s.pc + sext16 off) s
    Stores pointer.1 (s.reg r) s t ∧ SameKeyboard pointer.2 t)

/-- R146: STR, its encoding and its effect. -/
def Obligations.StrResult : Prop :=
  (∀ w : Word, w.extractLsb' 12 4 = 0x7#4 →
    decode w = .str (w.extractLsb' 9 3).toFin (w.extractLsb' 6 3).toFin (w.extractLsb' 0 6)) ∧
  (∀ (r b : Reg) (off : BitVec 6) (s : State), ∃ t, exec (.str r b off) s = .next t ∧
    Stores (s.reg b + sext16 off) (s.reg r) s t ∧ SameKeyboard s t)

/-! ## TRAP and the routines -/

/-- 44_trap.md R150 (undefined vectors: decision D4): TRAP dispatches on ir[7:0] alone, and for every
vector leaves the flags, R7, `pc` and memory as they are. -/
def Obligations.TrapDispatch : Prop :=
  ∀ w : Word, w.extractLsb' 12 4 = 0xF#4 →
    (w.extractLsb' 0 8 = 0x20#8 → decode w = .getc) ∧
    (w.extractLsb' 0 8 = 0x21#8 → decode w = .out) ∧
    (w.extractLsb' 0 8 = 0x22#8 → decode w = .puts) ∧
    (w.extractLsb' 0 8 = 0x23#8 → decode w = .inChar) ∧
    (w.extractLsb' 0 8 = 0x24#8 → decode w = .putsp) ∧
    (w.extractLsb' 0 8 = 0x25#8 → decode w = .halt) ∧
    (∀ s t : State, exec (decode w) s = .next t →
      t.cond = s.cond ∧ t.reg 7 = s.reg 7 ∧ t.pc = s.pc ∧ CellsBut [] s t)

/-- GETC (44_trap.md R152; the latch is decision D7, blocking decision D12): with a character
available it takes the head of `TermIn` into R0, zero-extended, and the latch; with none the CORE
is blocked. -/
def Obligations.GetcResult : Prop :=
  ∀ s : State,
    (∀ c rest, s.termIn = c :: rest → ∃ t, exec .getc s = .next t ∧
      t.reg 0 = c.setWidth 16 ∧ t.kbData = c ∧ t.termIn = rest ∧ RoutineFrame [0] s t ∧
      t.run = s.run ∧ SameOutput s t) ∧
    (s.termIn = [] → exec .getc s = .fault .blocked)

/-- R153: OUT writes the low 8 bits of R0, and nothing else changes. -/
def Obligations.OutResult : Prop :=
  (∀ w : Word, w.extractLsb' 12 4 = 0xF#4 → w.extractLsb' 0 8 = 0x21#8 → decode w = .out) ∧
  ∀ s : State, ∃ t, exec .out s = .next t ∧
    t.termOut = s.termOut ++ [(s.reg 0).extractLsb' 0 8] ∧ RoutineFrame [] s t ∧
    SameKeyboard s t ∧ t.run = s.run ∧ t.termRestores = s.termRestores

/-- PUTS (44_trap.md R154; terminator and wrap are decision D15, its reads decision D9): it ends in
`t` exactly when the spec's loop, which has no fuel, ends in `t`; it changes `TermOut`, and the
keyboard's state where its reads do, and nothing else. -/
def Obligations.PutsResult : Prop :=
  ∀ s t : State, (exec .puts s = .next t ↔ PutsEnds (s.reg 0) s t) ∧
    (exec .puts s = .next t → RoutineFrame [] s t ∧ t.run = s.run ∧
      t.termRestores = s.termRestores)

/-- IN (44_trap.md R155; decisions D7, D12, D13): the prompt, whatever its bytes are, then the echo,
and the character into R0 and the latch; with no character available the CORE is blocked. -/
def Obligations.InResult : Prop :=
  ∀ s : State,
    (∀ c rest, s.termIn = c :: rest → ∃ t, exec .inChar s = .next t ∧
      t.termOut = s.termOut ++ Config.inPrompt ++ [c] ∧ t.reg 0 = c.setWidth 16 ∧ t.kbData = c ∧
      t.termIn = rest ∧ RoutineFrame [0] s t ∧ t.run = s.run ∧ t.termRestores = s.termRestores) ∧
    (s.termIn = [] → exec .inChar s = .fault .blocked)

/-- R156: PUTSP, its encoding; it ends in `t` exactly when the spec's loop, which has no fuel, ends
in `t`; and its frame. -/
def Obligations.PutspResult : Prop :=
  (∀ w : Word, w.extractLsb' 12 4 = 0xF#4 → w.extractLsb' 0 8 = 0x24#8 → decode w = .putsp) ∧
  ∀ s t : State, (exec .putsp s = .next t ↔ PutspEnds (s.reg 0) s t) ∧
    (exec .putsp s = .next t → RoutineFrame [] s t ∧ t.run = s.run ∧
      t.termRestores = s.termRestores)

/-- HALT (44_trap.md R157) writes the message to `TermOut`, whatever its bytes are (decision D14),
restores the terminal once and clears `run`; nothing else changes, no further step happens, and no
other instruction clears `run`. That the restoring is counted is the model's choice (log 3). -/
def Obligations.HaltResult : Prop :=
  (∀ w : Word, w.extractLsb' 12 4 = 0xF#4 → w.extractLsb' 0 8 = 0x25#8 → decode w = .halt) ∧
  (∀ s : State, ∃ t, exec .halt s = .next t ∧ t.run = false ∧
    t.termOut = s.termOut ++ Config.haltMessage ∧ t.termRestores = s.termRestores + 1 ∧
    RoutineFrame [] s t ∧ SameKeyboard s t ∧ ∀ u, step t ≠ .next u) ∧
  (∀ (i : Instr) (s t : State), exec i s = .next t → s.run = true → t.run = false → i = .halt)

/-- PUTS and PUTSP complete from every state: a string that is not ended sooner is ended at the
keyboard status word, once the characters in `TermIn` are used up (44_trap.md R154, R156 with
20_memory.md R44; that string reads see the keyboard words is decision D9). That no string goes on
for ever is DEDUCED in log 6. -/
def Obligations.StringRoutinesAlwaysComplete : Prop :=
  ∀ s : State, (∃ t, exec .puts s = .next t ∧ PutsEnds (s.reg 0) s t) ∧
    (∃ t, exec .putsp s = .next t ∧ PutspEnds (s.reg 0) s t)

/-- A PUTS call on a string of cells away from the keyboard words writes exactly the low bytes of its
cells and stops at the zero cell (95_test_vectors.md S7, decision D15). -/
def Obligations.PutsWritesTheString : Prop :=
  ∀ (s : State) (cells : List Word),
    (∀ (k : Nat) (h : k < cells.length), s.mem.read (s.reg 0 + BitVec.ofNat 16 k) = cells[k] ∧
      cells[k] ≠ 0x0000#16) →
    (∀ k ≤ cells.length, s.reg 0 + BitVec.ofNat 16 k ≠ 0xFE00#16 ∧
      s.reg 0 + BitVec.ofNat 16 k ≠ 0xFE02#16) →
    s.mem.read (s.reg 0 + BitVec.ofNat 16 cells.length) = 0x0000#16 →
    exec .puts s =
      .next { s with termOut := s.termOut ++ cells.map (fun w => w.extractLsb' 0 8) }

/-- A PUTSP call on full cells away from the keyboard words writes both bytes of each, low byte
first, and of the last cell the low byte only, or nothing when that is zero (44_trap.md section 2,
decision D16). -/
def Obligations.PutspWritesTheString : Prop :=
  ∀ (s : State) (cells : List Word) (last : Word),
    (∀ (k : Nat) (h : k < cells.length), s.mem.read (s.reg 0 + BitVec.ofNat 16 k) = cells[k] ∧
      cells[k].extractLsb' 0 8 ≠ 0x00#8 ∧ cells[k].extractLsb' 8 8 ≠ 0x00#8) →
    (∀ k ≤ cells.length, s.reg 0 + BitVec.ofNat 16 k ≠ 0xFE00#16 ∧
      s.reg 0 + BitVec.ofNat 16 k ≠ 0xFE02#16) →
    s.mem.read (s.reg 0 + BitVec.ofNat 16 cells.length) = last →
    last.extractLsb' 0 8 = 0x00#8 ∨ last.extractLsb' 8 8 = 0x00#8 →
    exec .putsp s = .next { s with
      termOut := (s.termOut ++ cells.flatMap (fun w => [w.extractLsb' 0 8, w.extractLsb' 8 8]) ++
        if last.extractLsb' 0 8 = 0x00#8 then [] else [last.extractLsb' 0 8]) }

/-! ## Faults -/

/-- TRAP with an undefined vector (44_trap.md R159, decisions D4, D11): for each of the 250 vectors
the fault is recorded with the address the word was fetched from and the word, and nothing else
changes; every constructor of the six rows takes that entry. -/
def Obligations.UndefinedVectorRaises : Prop :=
  (∀ (w : Word) (s : State), w.extractLsb' 12 4 = 0xF#4 →
    w.extractLsb' 0 8 < 0x20#8 ∨ 0x25#8 < w.extractLsb' 0 8 →
    exec (decode w) s = .next { s with fault := some (.undefinedTrapVector (s.pc - 1#16) w) }) ∧
  (∀ (h : BitVec 4) (v : BitVec 8) (i : Instr) (s : State),
    i ∈ [.trapUndef001F h v, .trapUndef2627 h v, .trapUndef282F h v, .trapUndef303F h v,
      .trapUndef407F h v, .trapUndef80FF h v] →
    exec i s =
      .next { s with fault := some (.undefinedTrapVector (s.pc - 1#16) (0xF#4 ++ h ++ v)) })

/-- RTI and RES (45_reserved.md R170, R171, decisions D3, D11): the fault is recorded with the
address the word was fetched from and the word, and nothing else changes. -/
def Obligations.UndefinedOpcodeRaises : Prop :=
  (∀ (w : Word) (s : State), w.extractLsb' 12 4 = 0x8#4 ∨ w.extractLsb' 12 4 = 0xD#4 →
    exec (decode w) s = .next { s with fault := some (.illegalOpcode (s.pc - 1#16) w) }) ∧
  (∀ (low : BitVec 12) (s : State),
    exec (.rti low) s =
      .next { s with fault := some (.illegalOpcode (s.pc - 1#16) (0x8#4 ++ low)) } ∧
    exec (.res low) s =
      .next { s with fault := some (.illegalOpcode (s.pc - 1#16) (0xD#4 ++ low)) })

/-- The state at a fault is precise (60_exceptions.md R181, R183, decisions D3, D4, D11): a step that
leaves a fault recorded fetched a word of one of the two causes, records its address and the word,
and has done only its fetch and its increment of `pc`. -/
def Obligations.FaultRecordIsPrecise : Prop :=
  ∀ (s t u : State) (w : Word), step s = .next t → t.fault ≠ none → memRead s.pc s = (w, u) →
    ((w.extractLsb' 12 4 = 0x8#4 ∨ w.extractLsb' 12 4 = 0xD#4) ∧
      t = { u with pc := s.pc + 1#16, fault := some (.illegalOpcode s.pc w) }) ∨
    (w.extractLsb' 12 4 = 0xF#4 ∧ (w.extractLsb' 0 8 < 0x20#8 ∨ 0x25#8 < w.extractLsb' 0 8) ∧
      t = { u with pc := s.pc + 1#16, fault := some (.undefinedTrapVector s.pc w) })

/-! ## Whole-machine rules -/

/-- R22: `run` is cleared only by the HALT trap, and nothing sets it again, however the run goes
on. -/
def Obligations.OnlyHaltClearsRun : Prop :=
  (∀ (i : Instr) (s t : State), exec i s = .next t →
    (i = .halt → t.run = false) ∧ (i ≠ .halt → t.run = s.run)) ∧
  (∀ s t : State, Reach s t → s.run = false → t.run = false)

/-- `pc` after each instruction is as the table of 10_state.md R17 says, for every step (the row of
JSRR is decision D17, the rows of the faults D3, D4 and D11). -/
def Obligations.PcAfterEachInstruction : Prop :=
  ∀ s t : State, step s = .next t →
    t.pc = pcAfter (decode (memRead s.pc s).1) (s.pc + 1#16) s

/-- No instruction writes a register but its own destination: the destinations of 10_state.md R12
and R13, R7 for JSR and JSRR, R0 for GETC and IN, none for the others. -/
def Obligations.OnlyTheDestinationIsWritten : Prop :=
  ∀ (i : Instr) (s t : State), exec i s = .next t →
    ∀ r : Reg, i.destination ≠ some r → t.reg r = s.reg r

/-- The terminal is used in order by every step (10_state.md R27, R30 to R32): characters are taken
only from the head of `TermIn`, the latch holds the last one taken, and bytes are only appended to
`TermOut` (the latch is decision D7). -/
def Obligations.TerminalIsUsedInOrder : Prop :=
  ∀ s t : State, step s = .next t →
    ∃ taken written, s.termIn = taken ++ t.termIn ∧ t.termOut = s.termOut ++ written ∧
      t.kbData = taken.getLast?.getD s.kbData

/-! ## Loading images -/

/-- R203: an image's bytes are a big-endian origin and then big-endian words, high byte first; an
image may hold no words. -/
def Obligations.ImageFormatIsBigEndian : Prop :=
  (∀ i : Image, parseImage (i.origin.extractLsb' 8 8 :: i.origin.extractLsb' 0 8 ::
    i.words.flatMap (fun w => [w.extractLsb' 8 8, w.extractLsb' 0 8])) = .ok i) ∧
  parseImage [0x30#8, 0x00#8, 0x12#8, 0x36#8, 0xF0#8, 0x25#8] =
    .ok ⟨0x3000#16, [0x1236#16, 0xF025#16]⟩ ∧
  parseImage [0x30#8, 0x00#8] = .ok ⟨0x3000#16, []⟩

/-- R204: loading writes word i at origin + i modulo 2^16, in order, so that a word no later one
wraps onto is read there; every other cell keeps its value and nothing but memory changes; several
images are loaded in order. -/
def Obligations.LoadingWritesTheWordsInOrder : Prop :=
  (∀ (img : Image) (s : State),
    (∀ (k : Nat) (h : k < img.words.length),
      (∀ j, k < j → j < img.words.length →
        img.origin + BitVec.ofNat 16 j ≠ img.origin + BitVec.ofNat 16 k) →
      (loadImage img s).mem.read (img.origin + BitVec.ofNat 16 k) = img.words[k]) ∧
    (∀ a : Word, (∀ k < img.words.length, a ≠ img.origin + BitVec.ofNat 16 k) →
      (loadImage img s).mem.read a = s.mem.read a) ∧
    ∃ m, loadImage img s = { s with mem := m }) ∧
  (∀ (files : List (List Byte)) (imgs : List Image) (s : State),
    files.map parseImage = imgs.map .ok →
    loadFiles files s = .ok (imgs.foldl (fun t i => loadImage i t) s))

/-- The CORE never takes a step when no image is given, when any image fails to load, or when a file
ends before its origin word; otherwise it starts at the reset state with the images loaded
(70_reset_and_hazards.md section 2). -/
def Obligations.BootNeedsEveryImage : Prop :=
  boot [] = .error .noImage ∧
  (∀ (files : List (List Byte)) (f : List Byte) (e : LoadError), f ∈ files →
    parseImage f = .error e → ∃ e', boot files = .error e') ∧
  (∀ f : List Byte, f.length < 2 → parseImage f = .error .truncated) ∧
  (∀ (files : List (List Byte)) (imgs : List Image), files ≠ [] →
    files.map parseImage = imgs.map .ok →
    boot files = .ok (imgs.foldl (fun t i => loadImage i t) State.reset))
end

