-- ==== Sys2Proof/Laws/Decode.lean ====
section
/-! SUPPORT. The opcode map read in both directions, slices of concatenations, and the fields of each
encoding format (spec/30_encoding.md R71 to R75). -/

namespace Sys2Proof

/-! ### The opcode map -/

/-- Every opcode is found under the number that stands for it (R72). -/
@[simp] theorem opcodeOf_opcodeBits (o : Opcode) : opcodeOf (opcodeBits o) = o := by
  cases o <;> decide

/-- Every number is the one of the opcode found under it: the map has no gap and no repeat. -/
@[simp] theorem opcodeBits_opcodeOf (b : BitVec 4) : opcodeBits (opcodeOf b) = b := by
  revert b
  decide

/-! ### Slices of concatenations -/

/-- A slice that lies in the upper part. -/
theorem extract_append_upper {m n : Nat} (a : BitVec m) (b : BitVec n) (k len : Nat) :
    (a ++ b).extractLsb' (n + k) len = a.extractLsb' k len := by
  apply BitVec.eq_of_getLsbD_eq
  intro i hi
  have h : ¬ n + k + i < n := by omega
  have h' : n + k + i - n = k + i := by omega
  simp [BitVec.getLsbD_append, h, h']

/-- A slice that lies in the lower part. -/
theorem extract_append_lower {m n : Nat} (a : BitVec m) (b : BitVec n) (k len : Nat)
    (hk : k + len ≤ n) : (a ++ b).extractLsb' k len = b.extractLsb' k len := by
  apply BitVec.eq_of_getLsbD_eq
  intro i hi
  have h : k + i < n := by omega
  simp [BitVec.getLsbD_append, h]

/-- The slice that is all of a value. -/
theorem extract_all {n : Nat} (b : BitVec n) : b.extractLsb' 0 n = b := by
  apply BitVec.eq_of_getLsbD_eq
  intro i hi
  simp [hi]

/-- The upper part of a concatenation. -/
theorem extract_append_high {m n : Nat} (a : BitVec m) (b : BitVec n) :
    (a ++ b).extractLsb' n m = a :=
  (extract_append_upper a b 0 m).trans (extract_all a)

/-- The lower part of a concatenation. -/
theorem extract_append_low {m n : Nat} (a : BitVec m) (b : BitVec n) :
    (a ++ b).extractLsb' 0 n = b :=
  (extract_append_lower a b 0 n (by omega)).trans (extract_all b)

/-- A bit in the upper part. -/
theorem bit_append_upper {m n : Nat} (a : BitVec m) (b : BitVec n) (k : Nat) :
    (a ++ b).getLsbD (n + k) = a.getLsbD k := by
  have h : ¬ n + k < n := by omega
  have h' : n + k - n = k := by omega
  simp [BitVec.getLsbD_append, h']

/-- A word is its upper bits above its lower bits. -/
theorem append_extract {m n : Nat} (w : BitVec (m + n)) :
    w.extractLsb' n m ++ w.extractLsb' 0 n = w := by
  apply BitVec.eq_of_getLsbD_eq
  intro i hi
  rw [BitVec.getLsbD_append]
  split
  · next h => simp [h]
  · next h =>
    have h1 : n + (i - n) = i := by omega
    have h2 : i - n < m := by omega
    simp [h1, h2]

/-! ### The fields of the formats -/

@[simp] theorem regBits_toFin (r : Reg) : (regBits r).toFin = r := rfl

section Formats

variable (o : Opcode) (d a b : Reg)

@[simp] theorem encodeRR_op : opField (encodeRR o d a b) = opcodeBits o :=
  (extract_append_upper (m := 13) _ (regBits b) 9 4).trans
    ((extract_append_upper (m := 10) _ 0b000#3 6 4).trans
      ((extract_append_upper (m := 7) _ (regBits a) 3 4).trans (extract_append_high _ _)))
@[simp] theorem encodeRR_dr : drField (encodeRR o d a b) = d :=
  congrArg (fun f : BitVec 3 => f.toFin) <|
    (extract_append_upper (m := 13) _ (regBits b) 6 3).trans
      ((extract_append_upper (m := 10) _ 0b000#3 3 3).trans
        ((extract_append_upper (m := 7) _ (regBits a) 0 3).trans (extract_append_low _ _)))
@[simp] theorem encodeRR_sr : srField (encodeRR o d a b) = a :=
  congrArg (fun f : BitVec 3 => f.toFin) <|
    (extract_append_upper (m := 13) _ (regBits b) 3 3).trans
      ((extract_append_upper (m := 10) _ 0b000#3 0 3).trans (extract_append_low _ _))
@[simp] theorem encodeRR_sr2 : sr2Field (encodeRR o d a b) = b :=
  congrArg (fun f : BitVec 3 => f.toFin) (extract_append_low (m := 13) _ (regBits b))
@[simp] theorem encodeRR_bit5 : (encodeRR o d a b).getLsbD 5 = false :=
  (bit_append_upper (m := 13) _ (regBits b) 2).trans
    (by rw [BitVec.getLsbD_append]; rfl)

@[simp] theorem encodeRI_op (i : BitVec 5) : opField (encodeRI o d a i) = opcodeBits o :=
  (extract_append_upper (m := 11) _ i 7 4).trans
    ((extract_append_upper (m := 10) _ 0b1#1 6 4).trans
      ((extract_append_upper (m := 7) _ (regBits a) 3 4).trans (extract_append_high _ _)))
@[simp] theorem encodeRI_dr (i : BitVec 5) : drField (encodeRI o d a i) = d :=
  congrArg (fun f : BitVec 3 => f.toFin) <|
    (extract_append_upper (m := 11) _ i 4 3).trans
      ((extract_append_upper (m := 10) _ 0b1#1 3 3).trans
        ((extract_append_upper (m := 7) _ (regBits a) 0 3).trans (extract_append_low _ _)))
@[simp] theorem encodeRI_sr (i : BitVec 5) : srField (encodeRI o d a i) = a :=
  congrArg (fun f : BitVec 3 => f.toFin) <|
    (extract_append_upper (m := 11) _ i 1 3).trans
      ((extract_append_upper (m := 10) _ 0b1#1 0 3).trans (extract_append_low _ _))
@[simp] theorem encodeRI_imm5 (i : BitVec 5) : imm5Field (encodeRI o d a i) = i :=
  extract_append_low (m := 11) _ i
@[simp] theorem encodeRI_bit5 (i : BitVec 5) : (encodeRI o d a i).getLsbD 5 = true :=
  (bit_append_upper (m := 11) _ i 0).trans (by rw [BitVec.getLsbD_append]; rfl)

@[simp] theorem encodeM9_op (off : BitVec 9) : opField (encodeM9 o d off) = opcodeBits o :=
  (extract_append_upper (m := 7) _ off 3 4).trans (extract_append_high _ _)
@[simp] theorem encodeM9_dr (off : BitVec 9) : drField (encodeM9 o d off) = d :=
  congrArg (fun f : BitVec 3 => f.toFin) <|
    (extract_append_upper (m := 7) _ off 0 3).trans (extract_append_low _ _)
@[simp] theorem encodeM9_off9 (off : BitVec 9) : off9Field (encodeM9 o d off) = off :=
  extract_append_low (m := 7) _ off

@[simp] theorem encodeM6_op (off : BitVec 6) : opField (encodeM6 o d a off) = opcodeBits o :=
  (extract_append_upper (m := 10) _ off 6 4).trans
    ((extract_append_upper (m := 7) _ (regBits a) 3 4).trans (extract_append_high _ _))
@[simp] theorem encodeM6_dr (off : BitVec 6) : drField (encodeM6 o d a off) = d :=
  congrArg (fun f : BitVec 3 => f.toFin) <|
    (extract_append_upper (m := 10) _ off 3 3).trans
      ((extract_append_upper (m := 7) _ (regBits a) 0 3).trans (extract_append_low _ _))
@[simp] theorem encodeM6_sr (off : BitVec 6) : srField (encodeM6 o d a off) = a :=
  congrArg (fun f : BitVec 3 => f.toFin) <|
    (extract_append_upper (m := 10) _ off 0 3).trans (extract_append_low _ _)
@[simp] theorem encodeM6_off6 (off : BitVec 6) : off6Field (encodeM6 o d a off) = off :=
  extract_append_low (m := 10) _ off

@[simp] theorem encodeT_op (h : BitVec 4) (v : BitVec 8) :
    opField (encodeT h v) = opcodeBits .trap :=
  (extract_append_upper (m := 8) _ v 4 4).trans (extract_append_high _ _)
@[simp] theorem encodeT_high (h : BitVec 4) (v : BitVec 8) : highField (encodeT h v) = h :=
  (extract_append_upper (m := 8) _ v 0 4).trans (extract_append_low _ _)
@[simp] theorem encodeT_vec (h : BitVec 4) (v : BitVec 8) : vecField (encodeT h v) = v :=
  extract_append_low (m := 8) _ v

@[simp] theorem encodeU_op (low : BitVec 12) : opField (encodeU o low) = opcodeBits o :=
  extract_append_high (m := 4) _ low
@[simp] theorem encodeU_low (low : BitVec 12) : lowField (encodeU o low) = low :=
  extract_append_low (m := 4) _ low

end Formats

/-! ### The decoder, opcode by opcode -/

/-- The opcode a word has, from its top four bits as a number. -/
theorem opcodeOf_of_extract {w : Word} {b : BitVec 4} (h : w.extractLsb' 12 4 = b) :
    opcodeOf (opField w) = opcodeOf b := by
  rw [← h]
  rfl

/-! ### The trap dispatch, row by row (R73, R78) -/

section TrapRows

variable (h : BitVec 4)

@[simp] theorem decodeTrap_getc : decodeTrap h 0x20#8 = .getc := rfl
@[simp] theorem decodeTrap_out : decodeTrap h 0x21#8 = .out := rfl
@[simp] theorem decodeTrap_puts : decodeTrap h 0x22#8 = .puts := rfl
@[simp] theorem decodeTrap_inChar : decodeTrap h 0x23#8 = .inChar := rfl
@[simp] theorem decodeTrap_putsp : decodeTrap h 0x24#8 = .putsp := rfl
@[simp] theorem decodeTrap_halt : decodeTrap h 0x25#8 = .halt := rfl

/-- A vector outside 0x20 to 0x25 passes the six routines. -/
theorem vector_not_defined {v : BitVec 8} (hv : v < 0x20#8 ∨ 0x25#8 < v) :
    v ≠ 0x20#8 ∧ v ≠ 0x21#8 ∧ v ≠ 0x22#8 ∧ v ≠ 0x23#8 ∧ v ≠ 0x24#8 ∧ v ≠ 0x25#8 := by
  refine ⟨?_, ?_, ?_, ?_, ?_, ?_⟩ <;> rintro rfl <;> revert hv <;> decide

/-- A vector is one of the six defined ones, or lies outside them. -/
theorem vector_defined_or_not (v : BitVec 8) :
    (v = 0x20#8 ∨ v = 0x21#8 ∨ v = 0x22#8 ∨ v = 0x23#8 ∨ v = 0x24#8 ∨ v = 0x25#8) ∨
      (v < 0x20#8 ∨ 0x25#8 < v) := by
  revert v
  decide

theorem decodeTrap_001F {v : BitVec 8} (hv : v ≤ 0x1F#8) :
    decodeTrap h v = .trapUndef001F h v := by
  obtain ⟨h0, h1, h2, h3, h4, h5⟩ := vector_not_defined (v := v) (.inl (by bv_omega))
  simp only [decodeTrap, if_neg h0, if_neg h1, if_neg h2, if_neg h3, if_neg h4, if_neg h5, if_pos hv]

theorem decodeTrap_2627 {v : BitVec 8} (hl : 0x26#8 ≤ v) (hv : v ≤ 0x27#8) :
    decodeTrap h v = .trapUndef2627 h v := by
  obtain ⟨h0, h1, h2, h3, h4, h5⟩ := vector_not_defined (v := v) (.inr (by bv_omega))
  have h6 : ¬ v ≤ 0x1F#8 := by bv_omega
  simp only [decodeTrap, if_neg h0, if_neg h1, if_neg h2, if_neg h3, if_neg h4, if_neg h5, if_neg h6,
    if_pos hv]

theorem decodeTrap_282F {v : BitVec 8} (hl : 0x28#8 ≤ v) (hv : v ≤ 0x2F#8) :
    decodeTrap h v = .trapUndef282F h v := by
  obtain ⟨h0, h1, h2, h3, h4, h5⟩ := vector_not_defined (v := v) (.inr (by bv_omega))
  have h6 : ¬ v ≤ 0x1F#8 := by bv_omega
  have h7 : ¬ v ≤ 0x27#8 := by bv_omega
  simp only [decodeTrap, if_neg h0, if_neg h1, if_neg h2, if_neg h3, if_neg h4, if_neg h5, if_neg h6,
    if_neg h7, if_pos hv]

theorem decodeTrap_303F {v : BitVec 8} (hl : 0x30#8 ≤ v) (hv : v ≤ 0x3F#8) :
    decodeTrap h v = .trapUndef303F h v := by
  obtain ⟨h0, h1, h2, h3, h4, h5⟩ := vector_not_defined (v := v) (.inr (by bv_omega))
  have h6 : ¬ v ≤ 0x1F#8 := by bv_omega
  have h7 : ¬ v ≤ 0x27#8 := by bv_omega
  have h8 : ¬ v ≤ 0x2F#8 := by bv_omega
  simp only [decodeTrap, if_neg h0, if_neg h1, if_neg h2, if_neg h3, if_neg h4, if_neg h5, if_neg h6,
    if_neg h7, if_neg h8, if_pos hv]

theorem decodeTrap_407F {v : BitVec 8} (hl : 0x40#8 ≤ v) (hv : v ≤ 0x7F#8) :
    decodeTrap h v = .trapUndef407F h v := by
  obtain ⟨h0, h1, h2, h3, h4, h5⟩ := vector_not_defined (v := v) (.inr (by bv_omega))
  have h6 : ¬ v ≤ 0x1F#8 := by bv_omega
  have h7 : ¬ v ≤ 0x27#8 := by bv_omega
  have h8 : ¬ v ≤ 0x2F#8 := by bv_omega
  have h9 : ¬ v ≤ 0x3F#8 := by bv_omega
  simp only [decodeTrap, if_neg h0, if_neg h1, if_neg h2, if_neg h3, if_neg h4, if_neg h5, if_neg h6,
    if_neg h7, if_neg h8, if_neg h9, if_pos hv]

theorem decodeTrap_80FF {v : BitVec 8} (hl : 0x80#8 ≤ v) : decodeTrap h v = .trapUndef80FF h v := by
  obtain ⟨h0, h1, h2, h3, h4, h5⟩ := vector_not_defined (v := v) (.inr (by bv_omega))
  have h6 : ¬ v ≤ 0x1F#8 := by bv_omega
  have h7 : ¬ v ≤ 0x27#8 := by bv_omega
  have h8 : ¬ v ≤ 0x2F#8 := by bv_omega
  have h9 : ¬ v ≤ 0x3F#8 := by bv_omega
  have h10 : ¬ v ≤ 0x7F#8 := by bv_omega
  simp only [decodeTrap, if_neg h0, if_neg h1, if_neg h2, if_neg h3, if_neg h4, if_neg h5, if_neg h6,
    if_neg h7, if_neg h8, if_neg h9, if_neg h10]

/-- An undefined vector decodes to the row whose range holds it. -/
theorem decodeTrap_undefined {v : BitVec 8} (hv : v < 0x20#8 ∨ 0x25#8 < v) :
    (v ≤ 0x1F#8 ∧ decodeTrap h v = .trapUndef001F h v) ∨
    (0x26#8 ≤ v ∧ v ≤ 0x27#8 ∧ decodeTrap h v = .trapUndef2627 h v) ∨
    (0x28#8 ≤ v ∧ v ≤ 0x2F#8 ∧ decodeTrap h v = .trapUndef282F h v) ∨
    (0x30#8 ≤ v ∧ v ≤ 0x3F#8 ∧ decodeTrap h v = .trapUndef303F h v) ∨
    (0x40#8 ≤ v ∧ v ≤ 0x7F#8 ∧ decodeTrap h v = .trapUndef407F h v) ∨
    (0x80#8 ≤ v ∧ decodeTrap h v = .trapUndef80FF h v) := by
  have hc : v ≤ 0x1F#8 ∨ (0x26#8 ≤ v ∧ v ≤ 0x27#8) ∨ (0x28#8 ≤ v ∧ v ≤ 0x2F#8) ∨
      (0x30#8 ≤ v ∧ v ≤ 0x3F#8) ∨ (0x40#8 ≤ v ∧ v ≤ 0x7F#8) ∨ 0x80#8 ≤ v := by
    revert hv
    revert v
    decide
  rcases hc with h1 | ⟨h1, h2⟩ | ⟨h1, h2⟩ | ⟨h1, h2⟩ | ⟨h1, h2⟩ | h1
  · exact .inl ⟨h1, decodeTrap_001F h h1⟩
  · exact .inr (.inl ⟨h1, h2, decodeTrap_2627 h h1 h2⟩)
  · exact .inr (.inr (.inl ⟨h1, h2, decodeTrap_282F h h1 h2⟩))
  · exact .inr (.inr (.inr (.inl ⟨h1, h2, decodeTrap_303F h h1 h2⟩)))
  · exact .inr (.inr (.inr (.inr (.inl ⟨h1, h2, decodeTrap_407F h h1 h2⟩))))
  · exact .inr (.inr (.inr (.inr (.inr ⟨h1, decodeTrap_80FF h h1⟩))))

theorem decodeTrap_opcode (v : BitVec 8) : (decodeTrap h v).opcode = .trap := by
  rcases vector_defined_or_not v with hv | hv
  · rcases hv with rfl | rfl | rfl | rfl | rfl | rfl <;> rfl
  · rcases decodeTrap_undefined h hv with
      ⟨-, e⟩ | ⟨-, -, e⟩ | ⟨-, -, e⟩ | ⟨-, -, e⟩ | ⟨-, -, e⟩ | ⟨-, e⟩ <;> rw [e] <;> rfl

end TrapRows

/-- A word decodes to an instruction of the opcode that its top four bits select (R72, R73). -/
theorem decode_opcode (w : Word) : (decode w).opcode = opcodeOf (opField w) := by
  unfold decode
  cases opcodeOf (opField w) <;> dsimp only
  case add => split <;> rfl
  case and => split <;> rfl
  case jsr => split <;> rfl
  case trap => exact decodeTrap_opcode _ _
  all_goals rfl

end Sys2Proof
end

