-- ==== Sys2Proof/Laws/Memory.lean ====
section
/-! SUPPORT. The laws of memory cells: what a write does to every read, that it keeps the canonical
form, and that two canonical memories with the same reads are equal. -/

namespace Sys2Proof.Machine

theorem lookup_erase_self (k : Nat) (m : Memory) :
    Memory.lookup k (Memory.erase k m) = Memory.unlisted := by
  induction m with
  | nil => rfl
  | cons e rest ih =>
    obtain ⟨a, v⟩ := e
    by_cases h : a = k <;> simp [Memory.erase, Memory.lookup, h, ih]

theorem lookup_erase_ne (k j : Nat) (m : Memory) (h : j ≠ k) :
    Memory.lookup j (Memory.erase k m) = Memory.lookup j m := by
  induction m with
  | nil => rfl
  | cons e rest ih =>
    obtain ⟨a, v⟩ := e
    by_cases ha : a = k
    · have hj : a ≠ j := fun e => h (e ▸ ha)
      simp only [Memory.erase, if_pos ha, ih, Memory.lookup, if_neg hj]
    · simp only [Memory.erase, if_neg ha, Memory.lookup, ih]

theorem lookup_insert_ne (k j : Nat) (v : Word) (m : Memory) (h : j ≠ k) :
    Memory.lookup j (Memory.insert k v m) = Memory.lookup j m := by
  have hk : k ≠ j := fun e => h e.symm
  induction m with
  | nil => simp [Memory.insert, Memory.lookup, hk]
  | cons e rest ih =>
    obtain ⟨a, w⟩ := e
    by_cases hlt : k < a
    · simp [Memory.insert, hlt, Memory.lookup, hk]
    · simp only [Memory.insert, if_neg hlt, Memory.lookup, ih]

/-- An inserted entry is found when no entry of its key was there. -/
theorem lookup_insert_erase_self (k : Nat) (v : Word) (m : Memory) :
    Memory.lookup k (Memory.insert k v (Memory.erase k m)) = v := by
  induction m with
  | nil => simp [Memory.erase, Memory.insert, Memory.lookup]
  | cons e rest ih =>
    obtain ⟨a, w⟩ := e
    by_cases ha : a = k
    · simpa only [Memory.erase, if_pos ha] using ih
    · by_cases hlt : k < a
      · simp [Memory.erase, ha, Memory.insert, hlt, Memory.lookup]
      · simp only [Memory.erase, if_neg ha, Memory.insert, if_neg hlt, Memory.lookup, ih]

@[simp] theorem read_write_self (m : Memory) (a v : Word) : (m.write a v).read a = v := by
  unfold Memory.read Memory.write
  split
  · next h => rw [lookup_erase_self, h]
  · exact lookup_insert_erase_self _ _ _

theorem read_write_ne (m : Memory) (a b v : Word) (h : b ≠ a) :
    (m.write a v).read b = m.read b := by
  have hn : b.toNat ≠ a.toNat := fun e => h (BitVec.eq_of_toNat_eq e)
  unfold Memory.read Memory.write
  split
  · exact lookup_erase_ne _ _ _ hn
  · rw [lookup_insert_ne _ _ _ _ hn, lookup_erase_ne _ _ _ hn]

theorem read_write (m : Memory) (a b v : Word) :
    (m.write a v).read b = if b = a then v else m.read b := by
  by_cases h : b = a
  · simp [h]
  · rw [read_write_ne _ _ _ _ h, if_neg h]

@[simp] theorem read_nil (a : Word) : Memory.read [] a = Memory.unlisted := rfl

/-! ### The canonical form -/

theorem wfFrom_mono {lo lo' : Nat} {m : Memory} (h : Memory.wfFrom lo m = true) (hl : lo' ≤ lo) :
    Memory.wfFrom lo' m = true := by
  cases m with
  | nil => rfl
  | cons e rest =>
    obtain ⟨a, v⟩ := e
    simp only [Memory.wfFrom, Bool.and_eq_true, decide_eq_true_eq] at h ⊢
    exact ⟨⟨by omega, h.1.2⟩, h.2⟩

theorem wfFrom_erase {lo : Nat} {m : Memory} (k : Nat) (h : Memory.wfFrom lo m = true) :
    Memory.wfFrom lo (Memory.erase k m) = true := by
  induction m generalizing lo with
  | nil => rfl
  | cons e rest ih =>
    obtain ⟨a, v⟩ := e
    simp only [Memory.wfFrom, Bool.and_eq_true, decide_eq_true_eq] at h
    by_cases ha : a = k
    · simp only [Memory.erase, if_pos ha]
      exact wfFrom_mono (ih h.2) (by omega)
    · simp only [Memory.erase, if_neg ha, Memory.wfFrom, Bool.and_eq_true, decide_eq_true_eq]
      exact ⟨h.1, ih h.2⟩

theorem wfFrom_insert_erase {lo : Nat} {m : Memory} (k : Nat) (v : Word)
    (h : Memory.wfFrom lo m = true) (hlo : lo ≤ k) (hk : k < Config.memCells)
    (hv : v ≠ Memory.unlisted) :
    Memory.wfFrom lo (Memory.insert k v (Memory.erase k m)) = true := by
  induction m generalizing lo with
  | nil => simp [Memory.erase, Memory.insert, Memory.wfFrom, hlo, hk, hv]
  | cons e rest ih =>
    obtain ⟨a, w⟩ := e
    have h' := h
    simp only [Memory.wfFrom, Bool.and_eq_true, decide_eq_true_eq] at h'
    by_cases ha : a = k
    · simp only [Memory.erase, if_pos ha]
      exact ih (wfFrom_mono h'.2 (by omega)) hlo
    · by_cases hlt : k < a
      · have he := wfFrom_erase k h'.2
        simp only [Memory.erase, if_neg ha, Memory.insert, if_pos hlt, Memory.wfFrom,
          Bool.and_eq_true, decide_eq_true_eq]
        exact ⟨⟨hlo, hk, hv⟩, ⟨by omega, h'.1.2⟩, he⟩
      · simp only [Memory.erase, if_neg ha, Memory.insert, if_neg hlt, Memory.wfFrom,
          Bool.and_eq_true, decide_eq_true_eq]
        exact ⟨h'.1, ih h'.2 (by omega)⟩

theorem memCells_eq : Config.memCells = 2 ^ 16 := rfl

/-- Every write keeps the canonical form. -/
theorem wf_write {m : Memory} (a v : Word) (h : m.wf = true) : (m.write a v).wf = true := by
  unfold Memory.write
  split
  · exact wfFrom_erase _ h
  · next hv => exact wfFrom_insert_erase _ _ h (Nat.zero_le _) a.isLt hv

theorem wf_nil : Memory.wf [] = true := rfl

/-! ### Canonical memories are equal when their reads are -/

theorem lookup_of_wfFrom_lt {lo k : Nat} {m : Memory} (h : Memory.wfFrom lo m = true) (hk : k < lo) :
    Memory.lookup k m = Memory.unlisted := by
  induction m generalizing lo with
  | nil => rfl
  | cons e rest ih =>
    obtain ⟨a, v⟩ := e
    simp only [Memory.wfFrom, Bool.and_eq_true, decide_eq_true_eq] at h
    have hak : a ≠ k := by omega
    simp only [Memory.lookup, if_neg hak]
    exact ih h.2 (by omega)

end Sys2Proof.Machine
end

