-- ==== Sys2Proof/Laws/State.lean ====
section
/-! SUPPORT. One lemma per field per update of the state, each true by `rfl`, so that no proof
unfolds a record update. -/

namespace Sys2Proof.Machine

variable (s : State)

/-! ### `setReg` -/

@[simp] theorem setReg_x (i : Reg) (v : Word) : (s.setReg i v).x = s.x.set i.val v i.isLt := rfl
@[simp] theorem setReg_pc (i : Reg) (v : Word) : (s.setReg i v).pc = s.pc := rfl
@[simp] theorem setReg_cond (i : Reg) (v : Word) : (s.setReg i v).cond = s.cond := rfl
@[simp] theorem setReg_run (i : Reg) (v : Word) : (s.setReg i v).run = s.run := rfl
@[simp] theorem setReg_fault (i : Reg) (v : Word) : (s.setReg i v).fault = s.fault := rfl
@[simp] theorem setReg_mem (i : Reg) (v : Word) : (s.setReg i v).mem = s.mem := rfl
@[simp] theorem setReg_kbData (i : Reg) (v : Word) : (s.setReg i v).kbData = s.kbData := rfl
@[simp] theorem setReg_termIn (i : Reg) (v : Word) : (s.setReg i v).termIn = s.termIn := rfl
@[simp] theorem setReg_termOut (i : Reg) (v : Word) : (s.setReg i v).termOut = s.termOut := rfl
@[simp] theorem setReg_termRestores (i : Reg) (v : Word) : (s.setReg i v).termRestores = s.termRestores := rfl

/-! ### `setPc` -/

@[simp] theorem setPc_x (t : Word) : (s.setPc t).x = s.x := rfl
@[simp] theorem setPc_pc (t : Word) : (s.setPc t).pc = t := rfl
@[simp] theorem setPc_cond (t : Word) : (s.setPc t).cond = s.cond := rfl
@[simp] theorem setPc_run (t : Word) : (s.setPc t).run = s.run := rfl
@[simp] theorem setPc_fault (t : Word) : (s.setPc t).fault = s.fault := rfl
@[simp] theorem setPc_mem (t : Word) : (s.setPc t).mem = s.mem := rfl
@[simp] theorem setPc_kbData (t : Word) : (s.setPc t).kbData = s.kbData := rfl
@[simp] theorem setPc_termIn (t : Word) : (s.setPc t).termIn = s.termIn := rfl
@[simp] theorem setPc_termOut (t : Word) : (s.setPc t).termOut = s.termOut := rfl
@[simp] theorem setPc_termRestores (t : Word) : (s.setPc t).termRestores = s.termRestores := rfl
@[simp] theorem setPc_reg (t : Word) (r : Reg) : (s.setPc t).reg r = s.reg r := rfl

/-! ### `setCond` -/

@[simp] theorem setCond_x (f : Flag) : (s.setCond f).x = s.x := rfl
@[simp] theorem setCond_pc (f : Flag) : (s.setCond f).pc = s.pc := rfl
@[simp] theorem setCond_cond (f : Flag) : (s.setCond f).cond = f := rfl
@[simp] theorem setCond_run (f : Flag) : (s.setCond f).run = s.run := rfl
@[simp] theorem setCond_fault (f : Flag) : (s.setCond f).fault = s.fault := rfl
@[simp] theorem setCond_mem (f : Flag) : (s.setCond f).mem = s.mem := rfl
@[simp] theorem setCond_kbData (f : Flag) : (s.setCond f).kbData = s.kbData := rfl
@[simp] theorem setCond_termIn (f : Flag) : (s.setCond f).termIn = s.termIn := rfl
@[simp] theorem setCond_termOut (f : Flag) : (s.setCond f).termOut = s.termOut := rfl
@[simp] theorem setCond_termRestores (f : Flag) : (s.setCond f).termRestores = s.termRestores := rfl
@[simp] theorem setCond_reg (f : Flag) (r : Reg) : (s.setCond f).reg r = s.reg r := rfl

/-! ### `memWrite` -/

@[simp] theorem memWrite_x (a v : Word) : (memWrite a v s).x = s.x := rfl
@[simp] theorem memWrite_pc (a v : Word) : (memWrite a v s).pc = s.pc := rfl
@[simp] theorem memWrite_cond (a v : Word) : (memWrite a v s).cond = s.cond := rfl
@[simp] theorem memWrite_run (a v : Word) : (memWrite a v s).run = s.run := rfl
@[simp] theorem memWrite_fault (a v : Word) : (memWrite a v s).fault = s.fault := rfl
@[simp] theorem memWrite_mem (a v : Word) : (memWrite a v s).mem = s.mem.write a v := rfl
@[simp] theorem memWrite_kbData (a v : Word) : (memWrite a v s).kbData = s.kbData := rfl
@[simp] theorem memWrite_termIn (a v : Word) : (memWrite a v s).termIn = s.termIn := rfl
@[simp] theorem memWrite_termOut (a v : Word) : (memWrite a v s).termOut = s.termOut := rfl
@[simp] theorem memWrite_termRestores (a v : Word) : (memWrite a v s).termRestores = s.termRestores := rfl
@[simp] theorem memWrite_reg (a v : Word) (r : Reg) : (memWrite a v s).reg r = s.reg r := rfl

/-! ### `termWrite` -/

@[simp] theorem termWrite_x (c : Byte) : (termWrite c s).x = s.x := rfl
@[simp] theorem termWrite_pc (c : Byte) : (termWrite c s).pc = s.pc := rfl
@[simp] theorem termWrite_cond (c : Byte) : (termWrite c s).cond = s.cond := rfl
@[simp] theorem termWrite_run (c : Byte) : (termWrite c s).run = s.run := rfl
@[simp] theorem termWrite_fault (c : Byte) : (termWrite c s).fault = s.fault := rfl
@[simp] theorem termWrite_mem (c : Byte) : (termWrite c s).mem = s.mem := rfl
@[simp] theorem termWrite_kbData (c : Byte) : (termWrite c s).kbData = s.kbData := rfl
@[simp] theorem termWrite_termIn (c : Byte) : (termWrite c s).termIn = s.termIn := rfl
@[simp] theorem termWrite_termOut (c : Byte) : (termWrite c s).termOut = s.termOut ++ [c] := rfl
@[simp] theorem termWrite_termRestores (c : Byte) : (termWrite c s).termRestores = s.termRestores := rfl
@[simp] theorem termWrite_reg (c : Byte) (r : Reg) : (termWrite c s).reg r = s.reg r := rfl

/-! ### `termWriteAll` -/

@[simp] theorem termWriteAll_x (bs : List Byte) : (termWriteAll bs s).x = s.x := rfl
@[simp] theorem termWriteAll_pc (bs : List Byte) : (termWriteAll bs s).pc = s.pc := rfl
@[simp] theorem termWriteAll_cond (bs : List Byte) : (termWriteAll bs s).cond = s.cond := rfl
@[simp] theorem termWriteAll_run (bs : List Byte) : (termWriteAll bs s).run = s.run := rfl
@[simp] theorem termWriteAll_fault (bs : List Byte) : (termWriteAll bs s).fault = s.fault := rfl
@[simp] theorem termWriteAll_mem (bs : List Byte) : (termWriteAll bs s).mem = s.mem := rfl
@[simp] theorem termWriteAll_kbData (bs : List Byte) : (termWriteAll bs s).kbData = s.kbData := rfl
@[simp] theorem termWriteAll_termIn (bs : List Byte) : (termWriteAll bs s).termIn = s.termIn := rfl
@[simp] theorem termWriteAll_termOut (bs : List Byte) : (termWriteAll bs s).termOut = s.termOut ++ bs := rfl
@[simp] theorem termWriteAll_termRestores (bs : List Byte) : (termWriteAll bs s).termRestores = s.termRestores := rfl
@[simp] theorem termWriteAll_reg (bs : List Byte) (r : Reg) : (termWriteAll bs s).reg r = s.reg r := rfl

/-! ### `termRestore` -/

@[simp] theorem termRestore_x : (termRestore s).x = s.x := rfl
@[simp] theorem termRestore_pc : (termRestore s).pc = s.pc := rfl
@[simp] theorem termRestore_cond : (termRestore s).cond = s.cond := rfl
@[simp] theorem termRestore_run : (termRestore s).run = s.run := rfl
@[simp] theorem termRestore_fault : (termRestore s).fault = s.fault := rfl
@[simp] theorem termRestore_mem : (termRestore s).mem = s.mem := rfl
@[simp] theorem termRestore_kbData : (termRestore s).kbData = s.kbData := rfl
@[simp] theorem termRestore_termIn : (termRestore s).termIn = s.termIn := rfl
@[simp] theorem termRestore_termOut : (termRestore s).termOut = s.termOut := rfl
@[simp] theorem termRestore_termRestores : (termRestore s).termRestores = s.termRestores + 1 := rfl
@[simp] theorem termRestore_reg (r : Reg) : (termRestore s).reg r = s.reg r := rfl

/-! ### `appendKey` -/

@[simp] theorem appendKey_x (c : Byte) : (s.appendKey c).x = s.x := rfl
@[simp] theorem appendKey_pc (c : Byte) : (s.appendKey c).pc = s.pc := rfl
@[simp] theorem appendKey_cond (c : Byte) : (s.appendKey c).cond = s.cond := rfl
@[simp] theorem appendKey_run (c : Byte) : (s.appendKey c).run = s.run := rfl
@[simp] theorem appendKey_fault (c : Byte) : (s.appendKey c).fault = s.fault := rfl
@[simp] theorem appendKey_mem (c : Byte) : (s.appendKey c).mem = s.mem := rfl
@[simp] theorem appendKey_kbData (c : Byte) : (s.appendKey c).kbData = s.kbData := rfl
@[simp] theorem appendKey_termIn (c : Byte) : (s.appendKey c).termIn = s.termIn ++ [c] := rfl
@[simp] theorem appendKey_termOut (c : Byte) : (s.appendKey c).termOut = s.termOut := rfl
@[simp] theorem appendKey_termRestores (c : Byte) : (s.appendKey c).termRestores = s.termRestores := rfl
@[simp] theorem appendKey_reg (c : Byte) (r : Reg) : (s.appendKey c).reg r = s.reg r := rfl

/-! ### `raise` -/

@[simp] theorem raise_x (f : FaultRecord) : (raise f s).x = s.x := rfl
@[simp] theorem raise_pc (f : FaultRecord) : (raise f s).pc = s.pc := rfl
@[simp] theorem raise_cond (f : FaultRecord) : (raise f s).cond = s.cond := rfl
@[simp] theorem raise_run (f : FaultRecord) : (raise f s).run = s.run := rfl
@[simp] theorem raise_fault (f : FaultRecord) : (raise f s).fault = some f := rfl
@[simp] theorem raise_mem (f : FaultRecord) : (raise f s).mem = s.mem := rfl
@[simp] theorem raise_kbData (f : FaultRecord) : (raise f s).kbData = s.kbData := rfl
@[simp] theorem raise_termIn (f : FaultRecord) : (raise f s).termIn = s.termIn := rfl
@[simp] theorem raise_termOut (f : FaultRecord) : (raise f s).termOut = s.termOut := rfl
@[simp] theorem raise_termRestores (f : FaultRecord) : (raise f s).termRestores = s.termRestores := rfl
@[simp] theorem raise_reg (f : FaultRecord) (r : Reg) : (raise f s).reg r = s.reg r := rfl

/-! ### `clearRun` -/

@[simp] theorem clearRun_x : (clearRun s).x = s.x := rfl
@[simp] theorem clearRun_pc : (clearRun s).pc = s.pc := rfl
@[simp] theorem clearRun_cond : (clearRun s).cond = s.cond := rfl
@[simp] theorem clearRun_run : (clearRun s).run = false := rfl
@[simp] theorem clearRun_fault : (clearRun s).fault = s.fault := rfl
@[simp] theorem clearRun_mem : (clearRun s).mem = s.mem := rfl
@[simp] theorem clearRun_kbData : (clearRun s).kbData = s.kbData := rfl
@[simp] theorem clearRun_termIn : (clearRun s).termIn = s.termIn := rfl
@[simp] theorem clearRun_termOut : (clearRun s).termOut = s.termOut := rfl
@[simp] theorem clearRun_termRestores : (clearRun s).termRestores = s.termRestores := rfl
@[simp] theorem clearRun_reg (r : Reg) : (clearRun s).reg r = s.reg r := rfl

/-! ### Registers -/

@[simp] theorem setReg_reg_self (i : Reg) (v : Word) : (s.setReg i v).reg i = v := by
  simp [State.reg, State.setReg]

theorem setReg_reg_ne (i r : Reg) (v : Word) (h : r ≠ i) : (s.setReg i v).reg r = s.reg r := by
  have h' : i.val ≠ r.val := fun e => h (Fin.ext e.symm)
  simp [State.reg, State.setReg, Vector.getElem_set_ne, h']

/-- Two states with the same registers hold the same register file. -/
theorem x_ext {s t : State} (h : ∀ r : Reg, t.reg r = s.reg r) : t.x = s.x := by
  apply Vector.ext
  intro i hi
  exact h ⟨i, hi⟩

end Sys2Proof.Machine
end

