-- ==== Sys2Proof/Laws/Ops.lean ====
section
/-! SUPPORT. One lemma per shared operation that says everything it can do: `takeKey`, `MemRead`,
the fetch, the loads' end and the string loops. -/

namespace Sys2Proof.Machine

/-! ### The keyboard -/

theorem takeKey_nil {s : State} (h : s.termIn = []) : takeKey s = none := by
  simp [takeKey, h]

theorem takeKey_cons {s : State} {c : Byte} {rest : List Byte} (h : s.termIn = c :: rest) :
    takeKey s = some (c, { s with termIn := rest, kbData := c }) := by
  simp [takeKey, h]

/-- What a read can do to the state: nothing, or take the head of `TermIn` into the latch. -/
def KeyStep (s t : State) : Prop :=
  t = s ∨ ∃ c rest, s.termIn = c :: rest ∧ t = { s with termIn := rest, kbData := c }

/-- `MemRead` says one of three things (20_memory.md R44). -/
theorem memRead_cases (a : Word) (s : State) :
    (a = Config.kbsrAddr ∧ memRead a s = (kbsrWord s, s)) ∨
    (a = Config.kbdrAddr ∧ memRead a s = readKbdr s) ∨
    (a ≠ Config.kbsrAddr ∧ a ≠ Config.kbdrAddr ∧ memRead a s = (s.mem.read a, s)) := by
  by_cases h1 : a = Config.kbsrAddr
  · exact .inl ⟨h1, by simp [memRead, h1]⟩
  · by_cases h2 : a = Config.kbdrAddr
    · refine .inr (.inl ⟨h2, ?_⟩)
      rw [h2] at h1
      simp [memRead, h1, h2]
    · exact .inr (.inr ⟨h1, h2, by simp [memRead, h1, h2]⟩)

theorem memRead_kbsr (s : State) : memRead Config.kbsrAddr s = (kbsrWord s, s) := by
  simp [memRead]

theorem memRead_kbdr (s : State) : memRead Config.kbdrAddr s = readKbdr s := by
  have h : Config.kbdrAddr ≠ Config.kbsrAddr := by decide
  simp [memRead, h]

theorem memRead_plain {a : Word} (s : State) (h1 : a ≠ Config.kbsrAddr) (h2 : a ≠ Config.kbdrAddr) :
    memRead a s = (s.mem.read a, s) := by
  simp [memRead, h1, h2]

/-- A read changes at most the keyboard's state. -/
theorem memRead_keyStep (a : Word) (s : State) : KeyStep s (memRead a s).2 := by
  rcases memRead_cases a s with ⟨-, h⟩ | ⟨-, h⟩ | ⟨-, -, h⟩
  · exact .inl (by rw [h])
  · rw [h]
    cases hk : s.termIn with
    | nil => exact .inl (by rw [readKbdr, takeKey_nil hk])
    | cons c rest => exact .inr ⟨c, rest, hk, by rw [readKbdr, takeKey_cons hk]⟩
  · exact .inl (by rw [h])

section Frame

variable (a : Word) (s : State)

@[simp] theorem memRead_x : (memRead a s).2.x = s.x := by
  rcases memRead_keyStep a s with h | ⟨_, _, _, h⟩ <;> rw [h]
@[simp] theorem memRead_pc : (memRead a s).2.pc = s.pc := by
  rcases memRead_keyStep a s with h | ⟨_, _, _, h⟩ <;> rw [h]
@[simp] theorem memRead_cond : (memRead a s).2.cond = s.cond := by
  rcases memRead_keyStep a s with h | ⟨_, _, _, h⟩ <;> rw [h]
@[simp] theorem memRead_run : (memRead a s).2.run = s.run := by
  rcases memRead_keyStep a s with h | ⟨_, _, _, h⟩ <;> rw [h]
@[simp] theorem memRead_fault : (memRead a s).2.fault = s.fault := by
  rcases memRead_keyStep a s with h | ⟨_, _, _, h⟩ <;> rw [h]
@[simp] theorem memRead_mem : (memRead a s).2.mem = s.mem := by
  rcases memRead_keyStep a s with h | ⟨_, _, _, h⟩ <;> rw [h]
@[simp] theorem memRead_termOut : (memRead a s).2.termOut = s.termOut := by
  rcases memRead_keyStep a s with h | ⟨_, _, _, h⟩ <;> rw [h]
@[simp] theorem memRead_termRestores : (memRead a s).2.termRestores = s.termRestores := by
  rcases memRead_keyStep a s with h | ⟨_, _, _, h⟩ <;> rw [h]
@[simp] theorem memRead_reg (r : Reg) : (memRead a s).2.reg r = s.reg r := by
  simp [State.reg]

end Frame

/-! ### The fetch -/

@[simp] theorem fetch_word (s : State) : (fetch s).1 = (memRead s.pc s).1 := rfl

@[simp] theorem fetch_state (s : State) :
    (fetch s).2 = (memRead s.pc s).2.setPc (s.pc + 1#16) := by
  simp [fetch]

/-! ### The end of the seven flag-setting opcodes -/

section WriteResult

variable (d : Reg) (v : Word) (s : State)

@[simp] theorem writeResult_reg_self : (writeResult d v s).reg d = v := by
  simp [writeResult, setCC]
theorem writeResult_reg_ne (r : Reg) (h : r ≠ d) : (writeResult d v s).reg r = s.reg r := by
  simp [writeResult, setCC, setReg_reg_ne _ _ _ _ h]
@[simp] theorem writeResult_cond : (writeResult d v s).cond = flagOf v := by
  simp [writeResult, setCC]
@[simp] theorem writeResult_pc : (writeResult d v s).pc = s.pc := rfl
@[simp] theorem writeResult_run : (writeResult d v s).run = s.run := rfl
@[simp] theorem writeResult_fault : (writeResult d v s).fault = s.fault := rfl
@[simp] theorem writeResult_mem : (writeResult d v s).mem = s.mem := rfl
@[simp] theorem writeResult_kbData : (writeResult d v s).kbData = s.kbData := rfl
@[simp] theorem writeResult_termIn : (writeResult d v s).termIn = s.termIn := rfl
@[simp] theorem writeResult_termOut : (writeResult d v s).termOut = s.termOut := rfl
@[simp] theorem writeResult_termRestores :
    (writeResult d v s).termRestores = s.termRestores := rfl

end WriteResult

/-! ### The string loops -/

/-- The fuel in closed form. -/
theorem stringFuel_eq (s : State) : stringFuel s = Config.memCells * (s.termIn.length + 1) := by
  unfold stringFuel
  induction s.termIn with
  | nil => rfl
  | cons c rest ih => rw [lapFuel, ih, List.length_cons, Nat.mul_succ _ (rest.length + 1)]

/-- What a string routine leaves alone: all but `TermIn`, the latch and `TermOut`, which it only
appends to (44_trap.md R154, R156, R160). -/
structure StringFrame (s t : State) : Prop where
  x : t.x = s.x
  pc : t.pc = s.pc
  cond : t.cond = s.cond
  run : t.run = s.run
  fault : t.fault = s.fault
  mem : t.mem = s.mem
  termRestores : t.termRestores = s.termRestores

theorem stringFrame_read (a : Word) (s : State) : StringFrame s (memRead a s).2 :=
  ⟨by simp, by simp, by simp, by simp, by simp, by simp, by simp⟩

theorem stringFrame_termWrite (c : Byte) {s t : State} (h : StringFrame s t) :
    StringFrame s (termWrite c t) :=
  ⟨h.x, h.pc, h.cond, h.run, h.fault, h.mem, h.termRestores⟩

theorem StringFrame.trans {s t u : State} (h : StringFrame s t) (k : StringFrame t u) :
    StringFrame s u :=
  ⟨k.x.trans h.x, k.pc.trans h.pc, k.cond.trans h.cond, k.run.trans h.run, k.fault.trans h.fault,
    k.mem.trans h.mem, k.termRestores.trans h.termRestores⟩

/-- PUTS leaves the frame alone, however many rounds it runs. -/
theorem putsLoop_frame {n : Nat} {a : Word} {s t : State} (h : putsLoop n a s = some t) :
    StringFrame s t := by
  induction n generalizing a s with
  | zero => simp [putsLoop] at h
  | succ n ih =>
    simp only [putsLoop] at h
    split at h
    · cases h
      exact stringFrame_read a s
    · exact (stringFrame_termWrite _ (stringFrame_read a s)).trans (ih h)

/-- PUTSP leaves the frame alone, however many rounds it runs. -/
theorem putspLoop_frame {n : Nat} {a : Word} {s t : State} (h : putspLoop n a s = some t) :
    StringFrame s t := by
  induction n generalizing a s with
  | zero => simp [putspLoop] at h
  | succ n ih =>
    simp only [putspLoop] at h
    split at h
    · cases h
      exact stringFrame_read a s
    · split at h
      · cases h
        exact stringFrame_termWrite _ (stringFrame_read a s)
      · exact (stringFrame_termWrite _ (stringFrame_termWrite _ (stringFrame_read a s))).trans (ih h)

end Sys2Proof.Machine
end

