-- ==== Sys2Proof/Laws/PerInstr.lean ====
section
/-! SUPPORT. The family EncodesOpcode: the encoding of an instruction carries the number of its
opcode in its top four bits (spec/30_encoding.md R71, R72), constructor by constructor. -/

namespace Sys2Proof.Laws.EncodesOpcode

/-- The top four bits of the encoding are the number of the instruction's opcode. -/
def Statement (i : Instr) : Prop := opField (encode i) = opcodeBits i.opcode

theorem br (n z p : Bool) (off9 : BitVec 9) : Statement (.br n z p off9) :=
  (extract_append_upper (m := 7) _ off9 3 4).trans <|
    (extract_append_upper (m := 6) _ (BitVec.ofBool p) 2 4).trans <|
      (extract_append_upper (m := 5) _ (BitVec.ofBool z) 1 4).trans (extract_append_high _ _)
theorem add (dr sr1 sr2 : Reg) : Statement (.add dr sr1 sr2) := encodeRR_op ..
theorem addImm (dr sr1 : Reg) (imm5 : BitVec 5) : Statement (.addImm dr sr1 imm5) := encodeRI_op ..
theorem ld (dr : Reg) (off9 : BitVec 9) : Statement (.ld dr off9) := encodeM9_op ..
theorem st (sr : Reg) (off9 : BitVec 9) : Statement (.st sr off9) := encodeM9_op ..
theorem jsrr (baseR : Reg) : Statement (.jsrr baseR) :=
  (extract_append_upper (m := 10) _ 0b000000#6 6 4).trans <|
    (extract_append_upper (m := 7) _ (regBits baseR) 3 4).trans (extract_append_high _ _)
theorem jsr (off11 : BitVec 11) : Statement (.jsr off11) :=
  (extract_append_upper (m := 5) _ off11 1 4).trans (extract_append_high _ _)
theorem and (dr sr1 sr2 : Reg) : Statement (.and dr sr1 sr2) := encodeRR_op ..
theorem andImm (dr sr1 : Reg) (imm5 : BitVec 5) : Statement (.andImm dr sr1 imm5) := encodeRI_op ..
theorem ldr (dr baseR : Reg) (off6 : BitVec 6) : Statement (.ldr dr baseR off6) := encodeM6_op ..
theorem str (sr baseR : Reg) (off6 : BitVec 6) : Statement (.str sr baseR off6) := encodeM6_op ..
theorem rti (low : BitVec 12) : Statement (.rti low) := encodeU_op ..
theorem not (dr sr : Reg) : Statement (.not dr sr) :=
  (extract_append_upper (m := 10) _ 0b111111#6 6 4).trans <|
    (extract_append_upper (m := 7) _ (regBits sr) 3 4).trans (extract_append_high _ _)
theorem ldi (dr : Reg) (off9 : BitVec 9) : Statement (.ldi dr off9) := encodeM9_op ..
theorem sti (sr : Reg) (off9 : BitVec 9) : Statement (.sti sr off9) := encodeM9_op ..
theorem jmp (baseR : Reg) : Statement (.jmp baseR) :=
  (extract_append_upper (m := 10) _ 0b000000#6 6 4).trans <|
    (extract_append_upper (m := 7) _ (regBits baseR) 3 4).trans (extract_append_high _ _)
theorem res (low : BitVec 12) : Statement (.res low) := encodeU_op ..
theorem lea (dr : Reg) (off9 : BitVec 9) : Statement (.lea dr off9) := encodeM9_op ..
theorem getc : Statement .getc := encodeT_op ..
theorem out : Statement .out := encodeT_op ..
theorem puts : Statement .puts := encodeT_op ..
theorem inChar : Statement .inChar := encodeT_op ..
theorem putsp : Statement .putsp := encodeT_op ..
theorem halt : Statement .halt := encodeT_op ..
theorem trapUndef001F (high : BitVec 4) (vec : BitVec 8) : Statement (.trapUndef001F high vec) :=
  encodeT_op ..
theorem trapUndef2627 (high : BitVec 4) (vec : BitVec 8) : Statement (.trapUndef2627 high vec) :=
  encodeT_op ..
theorem trapUndef282F (high : BitVec 4) (vec : BitVec 8) : Statement (.trapUndef282F high vec) :=
  encodeT_op ..
theorem trapUndef303F (high : BitVec 4) (vec : BitVec 8) : Statement (.trapUndef303F high vec) :=
  encodeT_op ..
theorem trapUndef407F (high : BitVec 4) (vec : BitVec 8) : Statement (.trapUndef407F high vec) :=
  encodeT_op ..
theorem trapUndef80FF (high : BitVec 4) (vec : BitVec 8) : Statement (.trapUndef80FF high vec) :=
  encodeT_op ..

end Sys2Proof.Laws.EncodesOpcode
end

