-- ==== Sys2Proof/Tests/Slice0.lean ====
section
/-! SUPPORT. The model's own tests: every constructor's word, the checks of WellFormed, at most two
single steps per instruction with results from spec/95_test_vectors.md, and the witnesses that the
hypotheses of each statement can be met. -/

namespace Sys2Proof.Tests

open Sys2Proof Sys2Proof.Machine

/-! ## WellFormed refuses an ill-formed term for each of its checks -/

theorem test_wf_refuses_undef001F : (Instr.trapUndef001F 0x0 0x20).wf = false := by decide
theorem test_wf_refuses_undef2627 : (Instr.trapUndef2627 0x0 0x25).wf = false := by decide
theorem test_wf_refuses_undef282F : (Instr.trapUndef282F 0x0 0x27).wf = false := by decide
theorem test_wf_refuses_undef303F : (Instr.trapUndef303F 0x0 0x40).wf = false := by decide
theorem test_wf_refuses_undef407F : (Instr.trapUndef407F 0x0 0x80).wf = false := by decide
theorem test_wf_refuses_undef80FF : (Instr.trapUndef80FF 0x0 0x7F).wf = false := by decide

/-! ## Every constructor's word, bit by bit from the encodings of 30_encoding.md R71 and R72 -/

theorem test_decode_br : decode 0b0000101111111101#16 = .br true false true 0x1FD := by decide
theorem test_decode_add : decode 0b0001010011000100#16 = .add 2 3 4 := by decide
theorem test_decode_addImm : decode 0b0001001000110110#16 = .addImm 1 0 0b10110 := by decide
theorem test_decode_ld : decode 0b0010010000000111#16 = .ld 2 7 := by decide
theorem test_decode_st : decode 0b0011001111111111#16 = .st 1 0x1FF := by decide
theorem test_decode_jsrr : decode 0b0100000011000000#16 = .jsrr 3 := by decide
theorem test_decode_jsr : decode 0b0100110000000001#16 = .jsr 0x401 := by decide
theorem test_decode_and : decode 0b0101010011000100#16 = .and 2 3 4 := by decide
theorem test_decode_andImm : decode 0b0101001001110000#16 = .andImm 1 1 0b10000 := by decide
theorem test_decode_ldr : decode 0b0110100101111111#16 = .ldr 4 5 0x3F := by decide
theorem test_decode_str : decode 0b0111000001000011#16 = .str 0 1 3 := by decide
theorem test_decode_rti : decode 0b1000101010111100#16 = .rti 0xABC := by decide
theorem test_decode_not : decode 0b1001001010111111#16 = .not 1 2 := by decide
theorem test_decode_ldi : decode 0b1010010000000100#16 = .ldi 2 4 := by decide
theorem test_decode_sti : decode 0b1011000000000101#16 = .sti 0 5 := by decide
theorem test_decode_jmp : decode 0b1100000111000000#16 = .jmp 7 := by decide
theorem test_decode_res : decode 0b1101000100100011#16 = .res 0x123 := by decide
theorem test_decode_lea : decode 0b1110001000001011#16 = .lea 1 11 := by decide
theorem test_decode_getc : decode 0b1111000000100000#16 = .getc := by decide
theorem test_decode_out : decode 0b1111111100100001#16 = .out := by decide
theorem test_decode_puts : decode 0b1111000000100010#16 = .puts := by decide
theorem test_decode_inChar : decode 0b1111000000100011#16 = .inChar := by decide
theorem test_decode_putsp : decode 0b1111000000100100#16 = .putsp := by decide
theorem test_decode_halt : decode 0b1111101000100101#16 = .halt := by decide
theorem test_decode_undef001F :
    decode 0b1111000000011111#16 = .trapUndef001F 0x0 0x1F := by decide
theorem test_decode_undef2627 :
    decode 0b1111000100100111#16 = .trapUndef2627 0x1 0x27 := by decide
theorem test_decode_undef282F :
    decode 0b1111001000101000#16 = .trapUndef282F 0x2 0x28 := by decide
theorem test_decode_undef303F :
    decode 0b1111001100110000#16 = .trapUndef303F 0x3 0x30 := by decide
theorem test_decode_undef407F :
    decode 0b1111010001000000#16 = .trapUndef407F 0x4 0x40 := by decide
theorem test_decode_undef80FF :
    decode 0b1111111111111111#16 = .trapUndef80FF 0xF 0xFF := by decide

/-- The canonical words of R80 and R82: RET, HALT, NOP, and NOT with its ones. -/
theorem test_encode_canonical :
    encode (.jmp 7) = 0xC1C0#16 ∧ encode .halt = 0xF025#16 ∧
    encode (.br false false false 0) = 0x0000#16 ∧ encode (.not 1 2) = 0x92BF#16 ∧
    encode (.add 2 3 4) = 0x14C4#16 ∧ encode (.jsrr 3) = 0x40C0#16 := by decide

/-! ## Single steps (95_test_vectors.md part 2) -/

/-- The word `w` at the address `a`, and `pc` there. -/
def at_ (a w : Word) (s : State) : State := (memWrite a w s).setPc a

/-- A field of the state one step leads to. -/
def stepped {α : Type} (s : State) (f : State → α) : Option α :=
  match step s with
  | .next t => some (f t)
  | _ => none

/-- Characters ready on the terminal. -/
def typed (cs : List Byte) (s : State) : State := { s with termIn := cs }

/-- The reset state with a flag. -/
def flag (f : Flag) : State := State.reset.setCond f

theorem test_add_to_zero :
    stepped (at_ 0x3000 0x14DC ((State.reset.setReg 3 5).setReg 4 0xFFFB))
      (fun t => (t.reg 2, t.pc, t.cond)) = some (0x0000, 0x3001, .zero) := by decide
theorem test_add_source_is_destination :
    stepped (at_ 0x3000 0x1241 (State.reset.setReg 1 0x4000)) (fun t => (t.reg 1, t.cond)) =
      some (0x8000, .neg) := by decide
theorem test_addImm_negative :
    stepped (at_ 0x3000 0x1236 (State.reset.setReg 0 0x000A)) (fun t => (t.reg 1, t.cond)) =
      some (0x0000, .zero) := by decide
theorem test_addImm_top_of_memory :
    stepped (at_ 0xFFFF 0x1021 State.reset) (fun t => (t.reg 0, t.pc, t.cond)) =
      some (0x0001, 0x0000, .pos) := by decide
theorem test_and :
    stepped (at_ 0x3000 0x54C4 ((State.reset.setReg 3 0xF0F0).setReg 4 0x0FF0))
      (fun t => (t.reg 2, t.cond)) = some (0x00F0, .pos) := by decide
theorem test_andImm_sign_extends :
    stepped (at_ 0x3000 0x5270 (State.reset.setReg 1 0xABCD)) (fun t => (t.reg 1, t.cond)) =
      some (0xABC0, .neg) := by decide
theorem test_not_ignores_low_bits :
    stepped (at_ 0x3000 0x9280 (State.reset.setReg 2 0x00FF)) (fun t => (t.reg 1, t.cond)) =
      some (0xFF00, .neg) := by decide
theorem test_br_taken_backward :
    stepped (at_ 0x3003 0x09FD (flag .neg)) (fun t => (t.pc, t.cond)) =
      some (0x3001, .neg) := by decide
theorem test_br_not_taken :
    stepped (at_ 0x3000 0x0605 (flag .neg)) (fun t => t.pc) = some 0x3001 := by decide
theorem test_jmp_ignores_bits :
    stepped (at_ 0x3000 0xCEBF (State.reset.setReg 2 0x1234)) (fun t => t.pc) =
      some 0x1234 := by decide
theorem test_jsr_wraps :
    stepped (at_ 0xFFFF 0x4BFF (State.reset.setReg 7 0x1111)) (fun t => (t.reg 7, t.pc)) =
      some (0x0000, 0x03FF) := by decide
theorem test_jsrr :
    stepped (at_ 0x3005 0x46FF (State.reset.setReg 3 0x3009)) (fun t => (t.reg 7, t.pc)) =
      some (0x3006, 0x3009) := by decide
theorem test_jsrr_r7_does_not_jump :
    stepped (at_ 0x3005 0x41C0 (State.reset.setReg 7 0x4000)) (fun t => (t.reg 7, t.pc)) =
      some (0x3006, 0x3006) := by decide
theorem test_ld_own_word :
    stepped (at_ 0x3002 0x25FF State.reset) (fun t => (t.reg 2, t.cond)) =
      some (0x25FF, .pos) := by decide
theorem test_ld_wraps :
    stepped (at_ 0xFFFE 0x2001 (memWrite 0x0000 0x8000 State.reset))
      (fun t => (t.reg 0, t.pc, t.cond)) = some (0x8000, 0xFFFF, .neg) := by decide
theorem test_ldi_status_does_not_take :
    stepped (at_ 0x3000 0xA206 (memWrite 0x3007 0xFE00 (typed [0x61] State.reset)))
      (fun t => (t.reg 1, t.cond, t.termIn)) = some (0x8000, .neg, [0x61]) := by decide
theorem test_ldi_data_takes :
    stepped (at_ 0x3002 0xA005 (memWrite 0x3008 0xFE02 (typed [0x61, 0x62] State.reset)))
      (fun t => (t.reg 0, t.cond, t.termIn, t.kbData)) =
      some (0x0061, .pos, [0x62], 0x61) := by decide
theorem test_ldr_wraps_down :
    stepped (at_ 0x3000 0x62BF (memWrite 0xFFFF 0x8001 State.reset)) (fun t => (t.reg 1, t.cond)) =
      some (0x8001, .neg) := by decide
theorem test_ldr_destination_is_base :
    stepped (at_ 0x3000 0x6B40 ((flag .pos).setReg 5 0x4000)) (fun t => (t.reg 5, t.cond)) =
      some (0x0000, .zero) := by decide
theorem test_lea_sets_negative :
    stepped (at_ 0x7FFF 0xE200 State.reset) (fun t => (t.reg 1, t.pc, t.cond)) =
      some (0x8000, 0x8000, .neg) := by decide
theorem test_st_keeps_flags :
    stepped (at_ 0x3008 0x3002 ((flag .neg).setReg 0 0x7FFF))
      (fun t => (t.mem.read 0x300B, t.cond)) = some (0x7FFF, .neg) := by decide
theorem test_sti_overwrites_its_pointer :
    stepped (at_ 0x3000 0xB000 (memWrite 0x3001 0x3001 (State.reset.setReg 0 0x5555)))
      (fun t => t.mem.read 0x3001) = some 0x5555 := by decide
theorem test_sti_keyboard_address :
    stepped (at_ 0x3000 0xB000 (memWrite 0x3001 0xFE02 (typed [0x6B] (State.reset.setReg 0 0x5555))))
      (fun t => (t.mem.read 0xFE02, t.termIn, t.kbData)) = some (0x5555, [0x6B], 0x00) := by decide
theorem test_str_base_is_source :
    stepped (at_ 0x3000 0x7240 (State.reset.setReg 1 0x4000)) (fun t => t.mem.read 0x4000) =
      some 0x4000 := by decide
theorem test_getc_not_sign_extended :
    stepped (at_ 0x3000 0xF020 (typed [0xFF, 0x00] (flag .pos)))
      (fun t => (t.reg 0, t.cond, t.termIn, t.kbData, t.termOut)) =
      some (0x00FF, .pos, [0x00], 0xFF, []) := by decide
theorem test_out_low_byte :
    stepped (at_ 0x3000 0xFF21 (State.reset.setReg 0 0x1248)) (fun t => t.termOut) =
      some [0x48] := by decide
theorem test_puts_high_bytes_ignored :
    stepped (at_ 0x3000 0xF022 (memWrite 0x4000 0x1241 (memWrite 0x4001 0x0100
      (memWrite 0x4002 0x0042 (State.reset.setReg 0 0x4000)))))
      (fun t => (t.termOut, t.pc, t.reg 0)) = some ([0x41, 0x00, 0x42], 0x3001, 0x4000) := by decide
theorem test_puts_wraps :
    stepped (at_ 0x3000 0xF022 (memWrite 0xFFFF 0x0041 (memWrite 0x0000 0x0042
      (State.reset.setReg 0 0xFFFF)))) (fun t => t.termOut) = some [0x41, 0x42] := by decide
theorem test_in_stores_and_keeps_flags :
    stepped (at_ 0x3000 0xF023 (typed [0x79] (flag .neg)))
      (fun t => (t.reg 0, t.cond, t.termIn, t.kbData)) =
      some (0x0079, .neg, [], 0x79) := by decide
theorem test_putsp_odd_length :
    stepped (at_ 0x3000 0xF024 (memWrite 0x4000 0x6548 (memWrite 0x4001 0x006C
      (memWrite 0x4002 0x4242 (State.reset.setReg 0 0x4000))))) (fun t => t.termOut) =
      some [0x48, 0x65, 0x6C] := by decide
theorem test_putsp_low_byte_zero :
    stepped (at_ 0x3000 0xF024 (memWrite 0x4000 0x4100 (State.reset.setReg 0 0x4000)))
      (fun t => t.termOut) = some [] := by decide
theorem test_halt :
    stepped (at_ 0x3004 0xF025 (State.reset.setReg 0 0x000A))
      (fun t => (t.run, t.pc, t.reg 0, t.cond, t.fault)) =
      some (false, 0x3005, 0x000A, .zero, none) := by decide
theorem test_undefined_vector_00 :
    stepped (at_ 0x3000 0xF000 State.reset) (fun t => (t.fault, t.pc, t.run)) =
      some (some (.undefinedTrapVector 0x3000 0xF000), 0x3001, true) := by decide
theorem test_undefined_vector_FF :
    stepped (at_ 0x3000 0xF0FF State.reset) (fun t => (t.fault, t.pc)) =
      some (some (.undefinedTrapVector 0x3000 0xF0FF), 0x3001) := by decide
theorem test_rti :
    stepped (at_ 0x1000 0x8FFF ((flag .pos).setReg 3 7)) (fun t => (t.fault, t.pc, t.reg 3, t.cond)) =
      some (some (.illegalOpcode 0x1000 0x8FFF), 0x1001, 7, .pos) := by decide
theorem test_res :
    stepped (at_ 0x4000 0xD123 (flag .neg)) (fun t => (t.fault, t.pc, t.run)) =
      some (some (.illegalOpcode 0x4000 0xD123), 0x4001, true) := by decide
/-- A fetch from the status word with a key ready executes as RTI (2.8). -/
theorem test_fetch_status_word :
    stepped (typed [0x61] (State.reset.setPc 0xFE00)) (fun t => (t.fault, t.pc, t.termIn)) =
      some (some (.illegalOpcode 0xFE00 0x8000), 0xFE01, [0x61]) := by decide
/-- A fetch from the data word takes the key (2.8). -/
theorem test_fetch_data_word :
    stepped (typed [0x61] (State.reset.setPc 0xFE02)) (fun t => (t.pc, t.termIn, t.kbData)) =
      some (0xFE03, [], 0x61) := by decide
theorem test_getc_blocked : step (at_ 0x3000 0xF020 State.reset) = .fault .blocked := rfl
theorem test_in_blocked : step (at_ 0x3000 0xF023 State.reset) = .fault .blocked := rfl
theorem test_no_step_when_halted : step { State.reset with run := false } = .fault .halted := rfl
theorem test_no_step_when_faulted :
    step { State.reset with fault := some (.illegalOpcode 0 0x8000) } = .fault .faulted := rfl
/-- The loader's example of R203. -/
theorem test_boot_loads_image :
    (boot [[0x30, 0x00, 0x12, 0x36, 0xF0, 0x25]]).toOption.map
      (fun s => (s.mem, s.pc)) = some ([(0x3000, 0x1236), (0x3001, 0xF025)], 0x3000) := by decide
theorem test_boot_refuses :
    boot [] = .error .noImage ∧ boot [[0x30]] = .error .truncated ∧
      boot [[0x30, 0x00, 0x12]] = .error .trailingByte := ⟨rfl, rfl, rfl⟩
/-- The placed word is fetched and runs, for an instruction that needs a character too. -/
theorem test_placed_word_runs :
    stepped (State.reset.withFetchWord 16 0xF020) (fun t => (t.reg 0, t.pc)) =
      some (0x0061, 0x3001) ∧
    stepped (State.reset.withFetchWord 16 0x1021) (fun t => (t.reg 0, t.pc)) =
      some (0x0001, 0x3001) := by decide
/-- The memory keeps its canonical form: writing zero removes the entry, and order does not matter. -/
theorem test_memory_canonical :
    Memory.write (Memory.write [] 5 7) 5 0 = [] ∧
    Memory.write (Memory.write [] 9 1) 2 3 = Memory.write (Memory.write [] 2 3) 9 1 := by decide

/-! ## Witnesses: the hypotheses of each statement can be met, clause by clause -/

/-- A halted state. -/
def halted : State := { State.reset with run := false }
/-- A blocked state: GETC at 0x3000 and no character. -/
def waiting : State := at_ 0x3000 0xF020 State.reset

theorem witness_DecodeOfEncodeIsIdentity :
    (Instr.trapUndef80FF 0xF 0xFF).wf = true ∧ (Instr.trapUndef001F 0x0 0x00).wf = true ∧
      (Instr.add 7 0 7).wf = true := by decide

theorem witness_IgnoredBitsDoNotChangeDecoding :
    ((0x14C4#16).extractLsb' 12 4 = 0x1#4 ∧ (0x14C4#16).getLsbD 5 = false ∧
      0x14DC#16 &&& 0xFFE7#16 = 0x14C4#16 &&& 0xFFE7#16) ∧
    ((0x54C4#16).extractLsb' 12 4 = 0x5#4 ∧ (0x54C4#16).getLsbD 5 = false) ∧
    ((0x92BF#16).extractLsb' 12 4 = 0x9#4 ∧ 0x9280#16 &&& 0xFFC0#16 = 0x92BF#16 &&& 0xFFC0#16) ∧
    ((0xC080#16).extractLsb' 12 4 = 0xC#4 ∧ 0xCEBF#16 &&& 0xF1C0#16 = 0xC080#16 &&& 0xF1C0#16) ∧
    ((0x40C0#16).extractLsb' 11 5 = 0b01000#5 ∧
      0x46FF#16 &&& 0xF9C0#16 = 0x40C0#16 &&& 0xF9C0#16) ∧
    ((0xF025#16).extractLsb' 12 4 = 0xF#4 ∧ 0x20#8 ≤ (0xF025#16).extractLsb' 0 8 ∧
      (0xF025#16).extractLsb' 0 8 ≤ 0x25#8 ∧ 0xFA25#16 &&& 0xF0FF#16 = 0xF025#16 &&& 0xF0FF#16) ∧
    (0xF020#16).extractLsb' 0 8 = 0x20#8 ∧
    (0x8FFF#16).extractLsb' 12 4 = 0x8#4 ∧ (0xD000#16).extractLsb' 12 4 = 0xD#4 ∧
    ((0xF01F#16).extractLsb' 12 4 = 0xF#4 ∧ (0xF01F#16).extractLsb' 0 8 < 0x20#8 ∧
      0xFF1F#16 &&& 0xF0FF#16 = 0xF01F#16 &&& 0xF0FF#16) ∧
    ((0xF026#16).extractLsb' 12 4 = 0xF#4 ∧ 0x25#8 < (0xF026#16).extractLsb' 0 8) := by decide

theorem witness_StepFetchesAdvancesAndExecutes : Running State.reset ∧ ¬ Running halted := by decide

theorem witness_AppendedCharacterUnblocks : Running waiting ∧ Blocked waiting := by decide

theorem witness_StoppedMachineOnlyGainsInput :
    Reach halted (halted.appendKey 0x61) ∧ ¬ Running halted := ⟨.key _ (.refl _), by decide⟩

theorem witness_StepKeepsInvariant :
    Inv State.reset ∧ ∃ t, step State.reset = .next t := ⟨⟨by decide, by decide⟩, _, rfl⟩

theorem witness_EveryRunFromBootKeepsInvariant :
    ∃ s t, boot [[0x30, 0x00]] = .ok s ∧ Reach s t := ⟨_, _, rfl, .refl _⟩

theorem witness_MemReadDecodesKeyboardAddresses :
    (typed [0x61] State.reset).termIn = 0x61 :: [] ∧ State.reset.termIn = [] ∧
    (0xFDFF#16 ≠ 0xFE00#16 ∧ 0xFDFF#16 ≠ 0xFE02#16) ∧
    (0xFE01#16 ≠ 0xFE00#16 ∧ 0xFE01#16 ≠ 0xFE02#16) ∧
    (0xFE03#16 ≠ 0xFE00#16 ∧ 0xFE03#16 ≠ 0xFE02#16) := by decide

theorem witness_CanonicalMemoriesWithSameCellsAreEqual :
    Memory.wf [(0, 1), (65535, 2)] = true ∧
    Memory.wf (Memory.write (Memory.write [] 65535 2) 0 1) = true ∧
    ∀ a : Word, Memory.read [(0, 1), (65535, 2)] a =
      Memory.read (Memory.write (Memory.write [] 65535 2) 0 1) a :=
  ⟨by decide, by decide, fun _ => rfl⟩

theorem witness_OnlyStoresChangeMemory :
    (∃ t, exec (.st 0 2) State.reset = .next t) ∧
    (Instr.st 0 2).storeAddress State.reset ≠ some 0x3003 ∧
    (∃ t, exec (.add 0 0 0) State.reset = .next t) ∧
    (Instr.add 0 0 0).storeAddress State.reset ≠ some 0x3002 := ⟨⟨_, rfl⟩, by decide, ⟨_, rfl⟩, by decide⟩

/-- The three stores over the next cell: ST #0, STI through a pointer at it, STR from a base. -/
theorem witness_StoredWordIsFetchedNext :
    Running State.reset ∧
    (∃ t, exec (.st 1 0) State.reset = .next t ∧
      (Instr.st 1 0).storeAddress State.reset = some t.pc ∧ t.pc ≠ 0xFE00#16 ∧ t.pc ≠ 0xFE02#16) ∧
    (∃ t, exec (.sti 1 0) (memWrite 0x3000 0x3000 State.reset) = .next t ∧
      (Instr.sti 1 0).storeAddress (memWrite 0x3000 0x3000 State.reset) = some t.pc) ∧
    (∃ t, exec (.str 1 2 0) (State.reset.setReg 2 0x3000) = .next t ∧
      (Instr.str 1 2 0).storeAddress (State.reset.setReg 2 0x3000) = some t.pc) :=
  ⟨by decide, ⟨_, rfl, by decide⟩, ⟨_, rfl, by decide⟩, ⟨_, rfl, by decide⟩⟩

/-- STR at 0xFE01, between the keyboard addresses, then LDR; ST then LD, one word further on; STI
through a pointer, then LDI through the same pointer. -/
theorem witness_LoadAfterStoreSeesStoredValue :
    (∃ t, exec (.str 1 2 0) (State.reset.setReg 2 0xFE01) = .next t ∧
      (Instr.str 1 2 0).storeAddress (State.reset.setReg 2 0xFE01) = some 0xFE01 ∧
      (Instr.ldr 3 2 0).loadAddress t = some 0xFE01 ∧ (Instr.ldr 3 2 0).destination = some 3) ∧
    (∃ t, exec (.st 1 4) State.reset = .next t ∧
      (Instr.st 1 4).storeAddress State.reset = some 0x3004 ∧
      (Instr.ld 3 3).loadAddress (t.setPc 0x3001) = some 0x3004 ∧ (t.setPc 0x3001).mem = t.mem ∧
      (Instr.ld 3 3).destination = some 3) ∧
    (∃ t, exec (.sti 1 4) (memWrite 0x3004 0x4000 State.reset) = .next t ∧
      (Instr.sti 1 4).storeAddress (memWrite 0x3004 0x4000 State.reset) = some 0x4000 ∧
      (Instr.ldi 3 4).loadAddress t = some 0x4000 ∧ (Instr.ldi 3 4).destination = some 3) :=
  ⟨⟨_, rfl, by decide⟩, ⟨_, rfl, by decide⟩, ⟨_, rfl, by decide⟩⟩

/-- Two states that do differ, in both cells; the first steps, and a blocked pair stops. -/
theorem witness_KeyboardCellsAreNeverReadBack :
    let u := memWrite 0xFE02 0x1234 (memWrite 0xFE00 0xF025 State.reset)
    AgreeOffKeyboard State.reset u ∧ u ≠ State.reset ∧ (∃ t, step State.reset = .next t) ∧
      AgreeOffKeyboard waiting waiting ∧ step waiting = .fault .blocked := by
  refine ⟨⟨rfl, rfl, rfl, rfl, rfl, rfl, rfl, rfl, rfl, fun a ha => ?_⟩,
    fun e => absurd (congrArg (fun s => s.mem.length) e) (by decide), ⟨_, rfl⟩,
    ⟨rfl, rfl, rfl, rfl, rfl, rfl, rfl, rfl, rfl, fun _ _ => rfl⟩, rfl⟩
  rw [List.mem_cons, List.mem_singleton, not_or] at ha
  show ((Memory.write [] Config.kbsrAddr 0xF025).write Config.kbdrAddr 0x1234).read a = Memory.read [] a
  rw [read_write_ne _ _ a _ ha.2, read_write_ne _ _ a _ ha.1]

/-- The widths 1 and 16 at the ends of the range, with the top bit set and clear. -/
theorem witness_SignExtensionFollowsRule :
    (1#1).getLsbD 0 = true ∧ (0#1).getLsbD 0 = false ∧ (0x8000#16).getLsbD 15 = true ∧
      (0x7FFF#16).getLsbD 15 = false := by decide

theorem witness_OnlySevenOpcodesWriteCond :
    (∃ t, exec (.lea 1 0) State.reset = .next t) ∧ (Instr.lea 1 0).flagDestination = some 1 ∧
    (∃ t, exec (.jsr 0) State.reset = .next t) ∧ (Instr.jsr 0).flagDestination = none :=
  ⟨⟨_, rfl⟩, rfl, ⟨_, rfl⟩, rfl⟩

theorem witness_AddResult :
    ((0x1FDF#16).extractLsb' 12 4 = 0x1#4 ∧ (0x1FDF#16).getLsbD 5 = false) ∧
    ((0x1FFF#16).extractLsb' 12 4 = 0x1#4 ∧ (0x1FFF#16).getLsbD 5 = true) ∧
    (State.reset.setReg 2 0xFFFB).reg 2 = sext16 0b11011#5 := by decide

theorem witness_AndResult :
    ((0x54C4#16).extractLsb' 12 4 = 0x5#4 ∧ (0x54C4#16).getLsbD 5 = false) ∧
    ((0x5020#16).extractLsb' 12 4 = 0x5#4 ∧ (0x5020#16).getLsbD 5 = true) := by decide

/-- A word of each of the other opcodes that the encoding clauses speak of: NOT, JMP, JSR, JSRR, LD,
LDI, LDR, LEA, ST, STI, STR. -/
theorem witness_encoding_clauses :
    (0x9000#16).extractLsb' 12 4 = 0x9#4 ∧ (0xC000#16).extractLsb' 12 4 = 0xC#4 ∧
    ((0x4800#16).extractLsb' 12 4 = 0x4#4 ∧ (0x4800#16).getLsbD 11 = true) ∧
    ((0x47FF#16).extractLsb' 12 4 = 0x4#4 ∧ (0x47FF#16).getLsbD 11 = false) ∧
    (0x25FF#16).extractLsb' 12 4 = 0x2#4 ∧ (0xA404#16).extractLsb' 12 4 = 0xA#4 ∧
    (0x697F#16).extractLsb' 12 4 = 0x6#4 ∧ (0xE20B#16).extractLsb' 12 4 = 0xE#4 ∧
    (0x3002#16).extractLsb' 12 4 = 0x3#4 ∧ (0xB005#16).extractLsb' 12 4 = 0xB#4 ∧
    (0x7043#16).extractLsb' 12 4 = 0x7#4 := by decide

theorem witness_BranchResult :
    (0x09FD#16).extractLsb' 12 4 = 0x0#4 ∧
    (BitVec.ofBool true ++ BitVec.ofBool false ++ BitVec.ofBool false) &&& (flag .neg).cond.bits ≠ 0#3 ∧
    (BitVec.ofBool true ++ BitVec.ofBool false ++ BitVec.ofBool false) &&& (flag .pos).cond.bits = 0#3 := by
  decide

theorem witness_BranchMaskTestsItsFlags :
    0x0000#16 ≤ 0x01FF#16 ∧ 0x01FF#16 ≤ 0x01FF#16 := by decide

theorem witness_JsrrResult : (6 : Reg) ≠ 7 ∧ (7 : Reg) = 7 := by decide

theorem witness_CallThenReturn :
    (∃ off, Instr.jsr 7 = .jsr off) ∧ (∃ b, Instr.jsrr 3 = .jsrr b) ∧
    ∃ t, exec (.jsr 7) State.reset = .next t ∧ (State.reset.setReg 7 0x3000).reg 7 = t.reg 7 :=
  ⟨⟨_, rfl⟩, ⟨_, rfl⟩, _, rfl, rfl⟩

/-- A word of each vector, and a step of each kind. -/
theorem witness_TrapDispatch :
    (0xF020#16).extractLsb' 12 4 = 0xF#4 ∧ (0xF020#16).extractLsb' 0 8 = 0x20#8 ∧
    (0xFF21#16).extractLsb' 0 8 = 0x21#8 ∧ (0xF022#16).extractLsb' 0 8 = 0x22#8 ∧
    (0xF023#16).extractLsb' 0 8 = 0x23#8 ∧ (0xF024#16).extractLsb' 0 8 = 0x24#8 ∧
    (0xFA25#16).extractLsb' 0 8 = 0x25#8 ∧
    (∃ t, exec (decode 0xF021#16) State.reset = .next t) ∧
    (∃ t, exec (decode 0xF0FF#16) State.reset = .next t) :=
  ⟨rfl, rfl, rfl, rfl, rfl, rfl, rfl, ⟨_, rfl⟩, ⟨_, rfl⟩⟩

theorem witness_GetcResult_InResult :
    (typed [0x61] State.reset).termIn = 0x61 :: [] ∧ State.reset.termIn = [] := by decide

theorem witness_OutResult_PutspResult_HaltResult :
    (0xF021#16).extractLsb' 12 4 = 0xF#4 ∧ (0xF021#16).extractLsb' 0 8 = 0x21#8 ∧
    (0xF024#16).extractLsb' 0 8 = 0x24#8 ∧ (0xF025#16).extractLsb' 0 8 = 0x25#8 ∧
    ∃ t, exec .halt State.reset = .next t ∧ State.reset.run = true ∧ t.run = false :=
  ⟨rfl, rfl, rfl, rfl, _, rfl, rfl, rfl⟩

theorem witness_PutsResult_PutspResult :
    (∃ t, exec .puts State.reset = .next t) ∧ PutsEnds 0 State.reset State.reset ∧
    (∃ t, exec .putsp State.reset = .next t) ∧ PutspEnds 0 State.reset State.reset :=
  ⟨⟨_, rfl⟩, .stop rfl, ⟨_, rfl⟩, .stopLow rfl⟩

/-- The string of S7. -/
theorem witness_PutsWritesTheString :
    let s := memWrite 0x300A 0x0048 (memWrite 0x300B 0x0069 (State.reset.setReg 0 0x300A))
    let cells : List Word := [0x0048, 0x0069]
    (∀ (k : Nat) (h : k < cells.length), s.mem.read (s.reg 0 + BitVec.ofNat 16 k) = cells[k] ∧
      cells[k] ≠ 0x0000#16) ∧
    (∀ k ≤ cells.length, s.reg 0 + BitVec.ofNat 16 k ≠ 0xFE00#16 ∧
      s.reg 0 + BitVec.ofNat 16 k ≠ 0xFE02#16) ∧
    s.mem.read (s.reg 0 + BitVec.ofNat 16 cells.length) = 0x0000#16 := by decide

/-- The PUTSP vectors of odd and of even length. -/
theorem witness_PutspWritesTheString :
    let s := memWrite 0x4000 0x6548 (memWrite 0x4001 0x006C (State.reset.setReg 0 0x4000))
    let cells : List Word := [0x6548]
    (∀ (k : Nat) (h : k < cells.length), s.mem.read (s.reg 0 + BitVec.ofNat 16 k) = cells[k] ∧
      cells[k].extractLsb' 0 8 ≠ 0x00#8 ∧ cells[k].extractLsb' 8 8 ≠ 0x00#8) ∧
    (∀ k ≤ cells.length, s.reg 0 + BitVec.ofNat 16 k ≠ 0xFE00#16 ∧
      s.reg 0 + BitVec.ofNat 16 k ≠ 0xFE02#16) ∧
    s.mem.read (s.reg 0 + BitVec.ofNat 16 cells.length) = 0x006C#16 ∧
    (0x006C#16).extractLsb' 8 8 = 0x00#8 ∧ (0x4100#16).extractLsb' 0 8 = 0x00#8 := by decide

theorem witness_UndefinedVectorRaises :
    (0xF000#16).extractLsb' 12 4 = 0xF#4 ∧ (0xF01F#16).extractLsb' 0 8 < 0x20#8 ∧
    (0xF000#16).extractLsb' 0 8 < 0x20#8 ∧ 0x25#8 < (0xF026#16).extractLsb' 0 8 ∧
    0x25#8 < (0xF0FF#16).extractLsb' 0 8 ∧
    Instr.trapUndef407F 0 0x40 ∈ [Instr.trapUndef001F 0 0x40, .trapUndef2627 0 0x40,
      .trapUndef282F 0 0x40, .trapUndef303F 0 0x40, .trapUndef407F 0 0x40,
      .trapUndef80FF 0 0x40] := by decide

theorem witness_UndefinedOpcodeRaises :
    (0x8FFF#16).extractLsb' 12 4 = 0x8#4 ∧ (0xD000#16).extractLsb' 12 4 = 0xD#4 := by decide

theorem witness_FaultRecordIsPrecise :
    (∃ t, step (at_ 0x3000 0x8000 State.reset) = .next t ∧ t.fault ≠ none) ∧
    (∃ t, step (at_ 0x3000 0xF026 State.reset) = .next t ∧ t.fault ≠ none) ∧
    memRead 0x3000 (at_ 0x3000 0x8000 State.reset) = (0x8000, at_ 0x3000 0x8000 State.reset) :=
  ⟨⟨_, rfl, by decide⟩, ⟨_, rfl, by decide⟩, rfl⟩

theorem witness_OnlyHaltClearsRun :
    (∃ t, exec .halt State.reset = .next t) ∧
    (∃ t, exec (.rti 0) State.reset = .next t) ∧ Instr.rti 0 ≠ .halt ∧
    Reach halted halted ∧ halted.run = false :=
  ⟨⟨_, rfl⟩, ⟨_, rfl⟩, by decide, .refl _, rfl⟩

theorem witness_PcAfterEachInstruction_TerminalIsUsedInOrder :
    ∃ t, step (at_ 0x3000 0xF021 State.reset) = .next t := ⟨_, rfl⟩

theorem witness_OnlyTheDestinationIsWritten :
    (∃ t, exec (.ld 3 0) State.reset = .next t) ∧ (Instr.ld 3 0).destination ≠ some 7 ∧
    (∃ t, exec .out State.reset = .next t) ∧ Instr.out.destination ≠ some 0 :=
  ⟨⟨_, rfl⟩, by decide, ⟨_, rfl⟩, by decide⟩

/-- A last word that no later one wraps onto, a cell outside the image, and files that parse. -/
theorem witness_LoadingWritesTheWordsInOrder :
    let img : Image := ⟨0xFFFF, [0x1236, 0xF025]⟩
    (∀ j < img.words.length, 0 < j →
      img.origin + BitVec.ofNat 16 j ≠ img.origin + BitVec.ofNat 16 0) ∧
    (∀ k < img.words.length, (0x0001 : Word) ≠ img.origin + BitVec.ofNat 16 k) ∧
    [[0xFF, 0xFF, 0x12, 0x36, 0xF0, 0x25]].map parseImage = [img].map .ok :=
  ⟨by decide, by decide, rfl⟩

theorem witness_BootNeedsEveryImage :
    (([0x30] : List Byte) ∈ [[0x30, 0x00], [0x30]] ∧ parseImage [0x30] = .error .truncated) ∧
    ([0x30] : List Byte).length < 2 ∧ ([] : List Byte).length < 2 ∧
    ([[0x30, 0x00]] : List (List Byte)) ≠ [] ∧
    [[0x30, 0x00]].map parseImage = [⟨0x3000, []⟩].map .ok :=
  ⟨⟨by decide, rfl⟩, by decide, by decide, by decide, rfl⟩

end Sys2Proof.Tests
end

section
/-! PROOFS. `cond` and `run` under one instruction and along a run (spec/10_state.md R20, R22). -/

namespace Sys2Proof.Machine

/-! ### The flag of a value, and what the shared operations answer -/

/-- `flagOf` is the rule of R105: the three conditions exclude each other and cover every value. -/
theorem flagMatches_flagOf (v : Word) : FlagMatches v (flagOf v) := by
  by_cases hz : v = 0x0000#16
  · subst hz
    simp [FlagMatches, flagOf]
  · rw [flagOf, if_neg hz]
    cases hn : v.getLsbD 15 <;> simpa [FlagMatches, hz] using hn

theorem StringFrame.refl (s : State) : StringFrame s s :=
  ⟨rfl, rfl, rfl, rfl, rfl, rfl, rfl⟩

/-- A string routine steps exactly when its loop ends, to the state the loop ends in. -/
theorem stringOutcome_eq_next {o : Option State} {t : State} :
    stringOutcome o = .next t ↔ o = some t := by
  cases o <;> simp [stringOutcome]

theorem execPuts_frame {s t : State} (h : execPuts s = .next t) : StringFrame s t :=
  putsLoop_frame (stringOutcome_eq_next.mp h)

theorem execPutsp_frame {s t : State} (h : execPutsp s = .next t) : StringFrame s t :=
  putspLoop_frame (stringOutcome_eq_next.mp h)

/-- A character is taken only from the head of `TermIn`, and into the latch. -/
theorem takeKey_eq_some {s u : State} {c : Byte} (h : takeKey s = some (c, u)) :
    ∃ rest, s.termIn = c :: rest ∧ u = { s with termIn := rest, kbData := c } := by
  cases hk : s.termIn with
  | nil =>
    rw [takeKey_nil hk] at h
    cases h
  | cons c' rest =>
    rw [takeKey_cons hk] at h
    cases h
    exact ⟨rest, rfl, rfl⟩

/-- GETC steps only with a character waiting, which it moves to the latch and to R0 (R152, R158). -/
theorem execGetc_next {s t : State} (h : execGetc s = .next t) :
    ∃ c rest, s.termIn = c :: rest ∧ t = keyToR0 c { s with termIn := rest, kbData := c } := by
  unfold execGetc at h
  split at h
  · cases h
  · next c u hk =>
    cases h
    obtain ⟨rest, hin, rfl⟩ := takeKey_eq_some hk
    exact ⟨c, rest, hin, rfl⟩

/-- IN steps only with a character waiting: the prompt, then the character as in GETC and its echo
(R155, R158). -/
theorem execIn_next {s t : State} (h : execIn s = .next t) :
    ∃ c rest, s.termIn = c :: rest ∧ t = keyToR0 c (termWrite c
      { termWriteAll Config.inPrompt s with termIn := rest, kbData := c }) := by
  unfold execIn at h
  split at h
  · cases h
  · next c u hk =>
    cases h
    obtain ⟨rest, hin, rfl⟩ := takeKey_eq_some hk
    exact ⟨c, rest, hin, rfl⟩

/-! ### What an instruction does to `cond` and `run` -/

/-- The seven flag-setting opcodes end in `writeResult`, after reads that change at most the
keyboard's state (R20, R106). -/
theorem exec_eq_writeResult {i : Instr} {d : Reg} (hd : i.flagDestination = some d) (s : State) :
    ∃ v u, exec i s = .next (writeResult d v u) ∧ StringFrame s u := by
  cases i with
  | add | addImm | and | andImm | not | lea =>
    cases hd
    exact ⟨_, s, rfl, .refl s⟩
  | ld | ldr =>
    cases hd
    exact ⟨_, _, rfl, stringFrame_read _ s⟩
  | ldi =>
    cases hd
    exact ⟨_, _, rfl, (stringFrame_read _ s).trans (stringFrame_read _ _)⟩
  | br | jmp | jsr | jsrr | st | sti | str | rti | res | getc | out | puts | inChar | putsp | halt
  | trapUndef001F | trapUndef2627 | trapUndef282F | trapUndef303F | trapUndef407F
  | trapUndef80FF => cases hd

/-- An instruction outside the seven opcodes keeps `cond`, and `run` too unless it is HALT: the
transfers write `pc` and R7, the stores memory, the faults the fault record, the routines the
terminal, the latch and R0. -/
theorem exec_keeps_cond_and_run {i : Instr} {s t : State} (hd : i.flagDestination = none)
    (h : exec i s = .next t) : t.cond = s.cond ∧ (i ≠ .halt → t.run = s.run) := by
  cases i with
  | add | addImm | and | andImm | not | lea | ld | ldi | ldr => cases hd
  | br n z p off =>
    cases h
    split <;> exact ⟨rfl, fun _ => rfl⟩
  | jmp | jsr | jsrr | st | str | out | rti | res
  | trapUndef001F | trapUndef2627 | trapUndef282F | trapUndef303F | trapUndef407F
  | trapUndef80FF =>
    cases h
    exact ⟨rfl, fun _ => rfl⟩
  | sti r off =>
    cases h
    exact ⟨memRead_cond _ s, fun _ => memRead_run _ s⟩
  | getc =>
    obtain ⟨c, rest, -, rfl⟩ := execGetc_next h
    exact ⟨rfl, fun _ => rfl⟩
  | inChar =>
    obtain ⟨c, rest, -, rfl⟩ := execIn_next h
    exact ⟨rfl, fun _ => rfl⟩
  | puts =>
    have hf := execPuts_frame h
    exact ⟨hf.cond, fun _ => hf.run⟩
  | putsp =>
    have hf := execPutsp_frame h
    exact ⟨hf.cond, fun _ => hf.run⟩
  | halt =>
    cases h
    exact ⟨rfl, fun hne => absurd rfl hne⟩

/-- No instruction but HALT writes `run` (R22). -/
theorem exec_run_of_ne_halt {i : Instr} {s t : State} (hi : i ≠ .halt) (h : exec i s = .next t) :
    t.run = s.run := by
  cases hd : i.flagDestination with
  | none => exact (exec_keeps_cond_and_run hd h).2 hi
  | some d =>
    obtain ⟨v, u, he, hf⟩ := exec_eq_writeResult hd s
    cases he.symm.trans h
    exact hf.run

/-! ### A halted machine along a run -/

/-- A machine that steps is RUNNING, and its step is the execution of the word it fetches (R101). -/
theorem step_next {s t : State} (h : step s = .next t) :
    Running s ∧ exec (decode (fetch s).1) (fetch s).2 = .next t := by
  unfold step at h
  split at h
  · cases h
  · next hf =>
    split at h
    · next hr => exact ⟨⟨hr, by simpa using hf⟩, h⟩
    · cases h

/-- A halted machine stays halted: it has no step, and an append does not write `run`. -/
theorem Reach.run_false {s t : State} (h : Reach s t) (hs : s.run = false) : t.run = false := by
  induction h with
  | refl => exact hs
  | step _ hstep ih =>
    obtain ⟨⟨hrun, -⟩, -⟩ := step_next hstep
    rw [ih] at hrun
    cases hrun
  | key c _ ih => exact ih

/-! ### The statements -/

/-- Settles O23: the seven opcodes end in `writeResult`, every other instruction keeps `cond`. -/
theorem onlySevenOpcodesWriteCond : Obligations.OnlySevenOpcodesWriteCond := by
  unfold Obligations.OnlySevenOpcodesWriteCond
  refine fun i s t h => ⟨fun d hd => ?_, fun hd => (exec_keeps_cond_and_run hd h).1⟩
  obtain ⟨v, u, he, -⟩ := exec_eq_writeResult hd s
  cases he.symm.trans h
  rw [writeResult_reg_self, writeResult_cond]
  exact flagMatches_flagOf v

/-- Settles O53: one instruction by `exec_run_of_ne_halt`, a run by induction on its steps and
appends. -/
theorem onlyHaltClearsRun : Obligations.OnlyHaltClearsRun := by
  unfold Obligations.OnlyHaltClearsRun
  refine ⟨fun i s t h => ⟨fun hi => ?_, fun hi => exec_run_of_ne_halt hi h⟩,
    fun s t hreach => hreach.run_false⟩
  subst hi
  cases h
  rfl

end Sys2Proof.Machine
end

section
/-! PROOFS. The statement on `MemWrite` (20_memory.md R45). -/

namespace Sys2Proof.Machine

/-- `MemWrite` to `a` leaves every other cell as it was (R45). -/
theorem cellsBut_memWrite (a v : Word) (s : State) : CellsBut [a] s (memWrite a v s) := by
  intro b hb
  have hne : b ≠ a := by simpa using hb
  rw [memWrite_mem]
  exact read_write_ne s.mem a b v hne

/-- Settles O15: the cell written reads back by `read_write_self`, the others by
`cellsBut_memWrite`, and the next state is the old one with the written memory. -/
theorem memWriteChangesOneCell : Obligations.MemWriteChangesOneCell := by
  unfold Obligations.MemWriteChangesOneCell
  exact fun a v s => ⟨read_write_self s.mem a v, cellsBut_memWrite a v s, s.mem.write a v, rfl⟩

end Sys2Proof.Machine
end

section
/-! PROOFS. The step, `sext_16` and `SetCC` (spec/40_step_and_utilities.md R101, R104, R105). -/

namespace Sys2Proof.Machine

/-! ### The step -/

theorem step_of_running {s : State} (h : Running s) :
    step s = exec (decode (fetch s).1) (fetch s).2 := by
  obtain ⟨hrun, hfault⟩ := h
  simp [step, hrun, hfault]

/-- Settles O5: `step_of_running` with the two results of `fetch`, and `step_next` for the machine
that is not RUNNING. -/
theorem stepFetchesAdvancesAndExecutes : Obligations.StepFetchesAdvancesAndExecutes := by
  unfold Obligations.StepFetchesAdvancesAndExecutes
  refine fun s => ⟨fun hrun => ?_, fun hstopped t hstep => hstopped (step_next hstep).1⟩
  rw [step_of_running hrun, fetch_word, fetch_state]

/-! ### Sign extension -/

/-- `sext_16` as the library's sign extension, bit by bit: below `b` the mask has no bits, from `b`
up the field has none. -/
theorem sext16_eq_signExtend {b : Nat} (f : BitVec b) : sext16 f = f.signExtend 16 := by
  ext i hi
  have hones : ∀ j < 16, (0xFFFF#16).getLsbD j = true := by decide
  rw [BitVec.getElem_signExtend]
  by_cases hib : i < b
  · cases hm : f.msb <;> simp [sext16, hm, hib]
  · have hf : f.getLsbD i = false := BitVec.getLsbD_of_ge f i (by omega)
    have hmask := hones (i - b) (by omega)
    cases hm : f.msb <;> simp [sext16, hm, hib, hf, hmask]

theorem toInt_sext16 {b : Nat} (f : BitVec b) (hb : b ≤ 16) : (sext16 f).toInt = f.toInt := by
  rw [sext16_eq_signExtend, BitVec.toInt_signExtend_of_le hb]

theorem setWidth_sext16 {b : Nat} (f : BitVec b) (hb : b ≤ 16) : (sext16 f).setWidth b = f := by
  ext i hi
  have hi16 : i < 16 := by omega
  simp [sext16_eq_signExtend, BitVec.getElem_signExtend, hi, hi16]

/-- Settles O21: bit `b - 1` is the field's `msb`, so the first two clauses are the two
branches of `sext16`; the meaning and the low bits follow from `sext16_eq_signExtend`. -/
theorem signExtensionFollowsRule : Obligations.SignExtensionFollowsRule := by
  unfold Obligations.SignExtensionFollowsRule
  refine ⟨fun b f _ hb => ⟨fun h => ?_, fun h => ?_, toInt_sext16 f hb, setWidth_sext16 f hb⟩,
    by decide⟩
  · rw [← BitVec.msb_eq_getLsbD_last] at h
    rw [sext16, if_pos h]
  · rw [← BitVec.msb_eq_getLsbD_last] at h
    simp [sext16, h]

/-! ### The flag update -/

/-- Settles O22: the flag `SetCC` writes is `flagOf` of the register, which follows R105 by
`flagMatches_flagOf`; no other field is written. -/
theorem setCCSetsExactlyOneFlag : Obligations.SetCCSetsExactlyOneFlag := by
  unfold Obligations.SetCCSetsExactlyOneFlag
  exact fun i s => ⟨flagMatches_flagOf (s.reg i), rfl⟩

end Sys2Proof.Machine
end

section
/-! PROOFS. ADD, AND and NOT (spec/41_alu.md R120 to R125). -/

namespace Sys2Proof.Machine

/-! ### The encoding -/

/-- Opcode 0x1: ir[5] chooses the form (R120, R121). -/
theorem decode_of_opcode_add {w : Word} (h : w.extractLsb' 12 4 = 0x1#4) :
    decode w = if w.getLsbD 5 then .addImm (drField w) (srField w) (imm5Field w)
      else .add (drField w) (srField w) (sr2Field w) := by
  have ho : opcodeOf (opField w) = .add := opcodeOf_of_extract h
  rw [decode, ho]

/-- Opcode 0x5: ir[5] chooses the form (R122, R123). -/
theorem decode_of_opcode_and {w : Word} (h : w.extractLsb' 12 4 = 0x5#4) :
    decode w = if w.getLsbD 5 then .andImm (drField w) (srField w) (imm5Field w)
      else .and (drField w) (srField w) (sr2Field w) := by
  have ho : opcodeOf (opField w) = .and := opcodeOf_of_extract h
  rw [decode, ho]

/-- Opcode 0x9: ir[5:0] is not looked at (R124). -/
theorem decode_of_opcode_not {w : Word} (h : w.extractLsb' 12 4 = 0x9#4) :
    decode w = .not (drField w) (srField w) := by
  have ho : opcodeOf (opField w) = .not := opcodeOf_of_extract h
  rw [decode, ho]

/-! ### The result -/

section Exec

variable (d a b : Reg) (imm : BitVec 5) (s : State)

theorem exec_add : exec (.add d a b) s = .next (writeResult d (s.reg a + s.reg b) s) := rfl
theorem exec_addImm :
    exec (.addImm d a imm) s = .next (writeResult d (s.reg a + sext16 imm) s) := rfl
theorem exec_and : exec (.and d a b) s = .next (writeResult d (s.reg a &&& s.reg b) s) := rfl
theorem exec_andImm :
    exec (.andImm d a imm) s = .next (writeResult d (s.reg a &&& sext16 imm) s) := rfl
theorem exec_not : exec (.not d a) s = .next (writeResult d (~~~(s.reg a)) s) := rfl

end Exec

/-- `writeResult` does what a flag-setting instruction does, and nothing else (R105, R106). -/
theorem setsRegister_writeResult (d : Reg) (v : Word) (s : State) :
    SetsRegister d v s (writeResult d v s) where
  result := writeResult_reg_self d v s
  flag := by
    rw [writeResult_cond]
    exact flagMatches_flagOf v
  regs r hr := writeResult_reg_ne d v s r (by simpa using hr)
  pc := writeResult_pc d v s
  control := ⟨writeResult_run d v s, writeResult_fault d v s⟩
  cells a _ := by rw [writeResult_mem]
  output := ⟨writeResult_termOut d v s, writeResult_termRestores d v s⟩

theorem sameKeyboard_writeResult (d : Reg) (v : Word) (s : State) :
    SameKeyboard s (writeResult d v s) :=
  ⟨writeResult_termIn d v s, writeResult_kbData d v s⟩

/-- An instruction whose meaning is one `writeResult` completes, with that result and with all else
unchanged. -/
theorem exists_setsRegister_of_exec {i : Instr} {d : Reg} {v : Word} {s : State}
    (h : exec i s = .next (writeResult d v s)) :
    ∃ t, exec i s = .next t ∧ SetsRegister d v s t ∧ SameKeyboard s t :=
  ⟨_, h, setsRegister_writeResult d v s, sameKeyboard_writeResult d v s⟩

/-! ### The statements -/

/-- Settles O24: `decode_of_opcode_add` on the two values of ir[5], one `writeResult` for each form,
and the two forms write the same value when `x[SR2]` is the extended immediate. -/
theorem addResult : Obligations.AddResult := by
  unfold Obligations.AddResult
  refine ⟨fun w hop h5 => (decode_of_opcode_add hop).trans (if_neg (Bool.eq_false_iff.mp h5)),
    fun w hop h5 => (decode_of_opcode_add hop).trans (if_pos h5),
    fun d a b s => exists_setsRegister_of_exec (exec_add d a b s),
    fun d a imm s => exists_setsRegister_of_exec (exec_addImm d a imm s),
    fun d a b imm s himm => ?_⟩
  rw [exec_addImm, exec_add, himm]

/-- Settles O25: `decode_of_opcode_and` on the two values of ir[5], and one `writeResult` for each
form. -/
theorem andResult : Obligations.AndResult := by
  unfold Obligations.AndResult
  exact ⟨fun w hop h5 => (decode_of_opcode_and hop).trans (if_neg (Bool.eq_false_iff.mp h5)),
    fun w hop h5 => (decode_of_opcode_and hop).trans (if_pos h5),
    fun d a b s => exists_setsRegister_of_exec (exec_and d a b s),
    fun d a imm s => exists_setsRegister_of_exec (exec_andImm d a imm s)⟩

/-- Settles O26: the complement that NOT writes is the difference from 0xFFFF, the word of all
ones. -/
theorem notResult : Obligations.NotResult := by
  unfold Obligations.NotResult
  refine ⟨fun w hop => decode_of_opcode_not hop, fun d a s => exists_setsRegister_of_exec ?_⟩
  have hsub : 0xFFFF#16 - s.reg a = ~~~(s.reg a) := BitVec.allOnes_sub_eq_not (s.reg a)
  rw [exec_not, hsub]

end Sys2Proof.Machine
end

section
/-! PROOFS. BR, JMP, JSR, and the return address that JSR and JSRR leave in R7 (spec/42_control.md
R130 to R133). -/

namespace Sys2Proof.Machine

/-! ### The encoding -/

/-- Opcode 0x0: the mask is ir[11:9], the offset ir[8:0] (R130). -/
theorem decode_of_opcode_br {w : Word} (h : w.extractLsb' 12 4 = 0x0#4) :
    decode w = .br (w.getLsbD 11) (w.getLsbD 10) (w.getLsbD 9) (off9Field w) := by
  have ho : opcodeOf (opField w) = .br := opcodeOf_of_extract h
  rw [decode, ho]

/-- Opcode 0x4: ir[11] chooses between JSR and JSRR (R132). -/
theorem decode_of_opcode_jsr {w : Word} (h : w.extractLsb' 12 4 = 0x4#4) :
    decode w = if w.getLsbD 11 then .jsr (off11Field w) else .jsrr (srField w) := by
  have ho : opcodeOf (opField w) = .jsr := opcodeOf_of_extract h
  rw [decode, ho]

/-- Opcode 0xC: only ir[8:6] is looked at (R131). -/
theorem decode_of_opcode_jmp {w : Word} (h : w.extractLsb' 12 4 = 0xC#4) :
    decode w = .jmp (srField w) := by
  have ho : opcodeOf (opField w) = .jmp := opcodeOf_of_extract h
  rw [decode, ho]

/-! ### The result -/

section Exec

variable (n z p : Bool) (off : BitVec 9) (off11 : BitVec 11) (b : Reg) (s : State)

theorem exec_br : exec (.br n z p off) s =
    .next (if branchTaken n z p s.cond then s.setPc (s.pc + sext16 off) else s) := rfl
theorem exec_jmp : exec (.jmp b) s = .next (s.setPc (s.reg b)) := rfl
theorem exec_jsr :
    exec (.jsr off11) s = .next ((linkR7 s).setPc (s.pc + sext16 off11)) := rfl
theorem exec_jsrr : exec (.jsrr b) s = .next ((linkR7 s).setPc ((linkR7 s).reg b)) := rfl

end Exec

/-- The branch condition as R130 writes it. -/
theorem branchTaken_iff {n z p : Bool} {c : Flag} :
    branchTaken n z p c = true ↔ condMask n z p &&& c.bits ≠ 0#3 := bne_iff_ne

@[simp] theorem linkR7_reg_seven (s : State) : (linkR7 s).reg 7 = s.pc := setReg_reg_self s 7 s.pc

/-! ### The frame -/

/-- A machine left as it is continues at the incremented pc. -/
theorem transfers_refl (s : State) : Transfers s.pc [] s s where
  pc := rfl
  flag := rfl
  regs _ _ := rfl
  control := ⟨rfl, rfl⟩
  cells _ _ := rfl
  keyboard := ⟨rfl, rfl⟩
  output := ⟨rfl, rfl⟩

/-- The link of JSR and JSRR writes R7 and nothing else; `cond` stays as it is (R132, R133). -/
theorem transfers_linkR7 (s : State) : Transfers s.pc [7] s (linkR7 s) where
  pc := setReg_pc s 7 s.pc
  flag := setReg_cond s 7 s.pc
  regs r hr := setReg_reg_ne s 7 r s.pc (by simpa using hr)
  control := ⟨setReg_run s 7 s.pc, setReg_fault s 7 s.pc⟩
  cells _ _ := congrArg (Memory.read · _) (setReg_mem s 7 s.pc)
  keyboard := ⟨setReg_termIn s 7 s.pc, setReg_kbData s 7 s.pc⟩
  output := ⟨setReg_termOut s 7 s.pc, setReg_termRestores s 7 s.pc⟩

/-- A jump at the end of a transfer redirects it and keeps its frame. -/
theorem Transfers.setPc {old : Word} {ds : List Reg} {s t : State} (h : Transfers old ds s t)
    (target : Word) : Transfers target ds s (t.setPc target) :=
  { h with pc := setPc_pc t target }

/-! ### The call and the return -/

/-- JSR and JSRR differ in their target only: each links, then jumps (R132). -/
theorem exec_call {i : Instr} (h : (∃ off, i = .jsr off) ∨ (∃ b, i = .jsrr b)) (s : State) :
    ∃ target, exec i s = .next ((linkR7 s).setPc target) := by
  rcases h with ⟨off, rfl⟩ | ⟨b, rfl⟩
  · exact ⟨_, exec_jsr off s⟩
  · exact ⟨_, exec_jsrr b s⟩

/-! ### The statements -/

/-- Settles O27: `decode_of_opcode_br`, and the two outcomes of `exec_br` by the branch
condition. -/
theorem branchResult : Obligations.BranchResult := by
  unfold Obligations.BranchResult
  refine ⟨fun w hop => decode_of_opcode_br hop, fun n z p off s => ⟨_, exec_br n z p off s,
    fun htaken => ?_, fun hnot => ?_⟩⟩
  · rw [if_pos (branchTaken_iff.mpr htaken)]
    exact (transfers_refl s).setPc _
  · rw [if_neg (fun htaken => branchTaken_iff.mp htaken hnot)]
    exact transfers_refl s

/-- Settles O29: `decode_of_opcode_jmp`, and one `setPc` with the frame of `Transfers.setPc`. -/
theorem jumpResult : Obligations.JumpResult := by
  unfold Obligations.JumpResult
  exact ⟨fun w hop => decode_of_opcode_jmp hop, decode_of_opcode_jmp rfl,
    fun b s => ⟨_, exec_jmp b s, (transfers_refl s).setPc _⟩⟩

/-- Settles O30: `decode_of_opcode_jsr` with ir[11] = 1; the link comes first, then the jump, which
keeps the link's frame. -/
theorem jsrResult : Obligations.JsrResult := by
  unfold Obligations.JsrResult
  exact ⟨fun w hop h11 => (decode_of_opcode_jsr hop).trans (if_pos h11),
    fun off s => ⟨_, exec_jsr off s, linkR7_reg_seven s, (transfers_linkR7 s).setPc _⟩⟩

/-- Settles O32: `decode_of_opcode_jsr` on the two values of ir[11]; a call links by `exec_call`,
and JMP through R7 jumps to the linked address. -/
theorem callThenReturn : Obligations.CallThenReturn := by
  unfold Obligations.CallThenReturn
  refine ⟨fun w hop => ⟨fun h11 => ⟨_, (decode_of_opcode_jsr hop).trans (if_pos h11)⟩,
    fun h11 => ⟨_, (decode_of_opcode_jsr hop).trans (if_neg (Bool.eq_false_iff.mp h11))⟩⟩,
    fun i s hcall => ?_⟩
  obtain ⟨target, hexec⟩ := exec_call hcall s
  refine ⟨_, hexec, linkR7_reg_seven s, fun u hu => ?_⟩
  have hlink : u.reg 7 = s.pc := hu.trans (linkR7_reg_seven s)
  rw [exec_jmp, hlink, State.setPc]

end Sys2Proof.Machine
end

section
/-! PROOFS. LD, LDI, LDR, LEA, ST, STI and STR (spec/43_load_store.md R140 to R148). -/

namespace Sys2Proof.Machine

/-! ### The encoding -/

section Encoding

variable {w : Word}

/-- Opcode 0x2 (R140). -/
theorem decode_of_opcode_ld (h : w.extractLsb' 12 4 = 0x2#4) :
    decode w = .ld (drField w) (off9Field w) := by
  have ho : opcodeOf (opField w) = .ld := opcodeOf_of_extract h
  rw [decode, ho]

/-- Opcode 0xA (R141). -/
theorem decode_of_opcode_ldi (h : w.extractLsb' 12 4 = 0xA#4) :
    decode w = .ldi (drField w) (off9Field w) := by
  have ho : opcodeOf (opField w) = .ldi := opcodeOf_of_extract h
  rw [decode, ho]

/-- Opcode 0x6 (R142). -/
theorem decode_of_opcode_ldr (h : w.extractLsb' 12 4 = 0x6#4) :
    decode w = .ldr (drField w) (srField w) (off6Field w) := by
  have ho : opcodeOf (opField w) = .ldr := opcodeOf_of_extract h
  rw [decode, ho]

/-- Opcode 0xE (R143). -/
theorem decode_of_opcode_lea (h : w.extractLsb' 12 4 = 0xE#4) :
    decode w = .lea (drField w) (off9Field w) := by
  have ho : opcodeOf (opField w) = .lea := opcodeOf_of_extract h
  rw [decode, ho]

/-- Opcode 0x3: the source register stands where the loads have DR (R144). -/
theorem decode_of_opcode_st (h : w.extractLsb' 12 4 = 0x3#4) :
    decode w = .st (drField w) (off9Field w) := by
  have ho : opcodeOf (opField w) = .st := opcodeOf_of_extract h
  rw [decode, ho]

/-- Opcode 0xB (R145). -/
theorem decode_of_opcode_sti (h : w.extractLsb' 12 4 = 0xB#4) :
    decode w = .sti (drField w) (off9Field w) := by
  have ho : opcodeOf (opField w) = .sti := opcodeOf_of_extract h
  rw [decode, ho]

/-- Opcode 0x7 (R146). -/
theorem decode_of_opcode_str (h : w.extractLsb' 12 4 = 0x7#4) :
    decode w = .str (drField w) (srField w) (off6Field w) := by
  have ho : opcodeOf (opField w) = .str := opcodeOf_of_extract h
  rw [decode, ho]

end Encoding

/-! ### The result -/

section Exec

variable (d r b : Reg) (off : BitVec 9) (off6 : BitVec 6) (s : State)

theorem exec_ld : exec (.ld d off) s = .next (loadFrom d (s.pc + sext16 off) s) := rfl
theorem exec_ldi : exec (.ldi d off) s =
    .next (loadFrom d (memRead (s.pc + sext16 off) s).1 (memRead (s.pc + sext16 off) s).2) := rfl
theorem exec_ldr :
    exec (.ldr d b off6) s = .next (loadFrom d (s.reg b + sext16 off6) s) := rfl
theorem exec_lea : exec (.lea d off) s = .next (writeResult d (s.pc + sext16 off) s) := rfl
theorem exec_st : exec (.st r off) s = .next (memWrite (s.pc + sext16 off) (s.reg r) s) := rfl
/-- STI reads its source after the pointer; the read leaves the registers alone, so that is the old
`x[SR]`. -/
theorem exec_sti : exec (.sti r off) s = .next (memWrite (memRead (s.pc + sext16 off) s).1
    (s.reg r) (memRead (s.pc + sext16 off) s).2) := by
  rw [← memRead_reg (s.pc + sext16 off) s r]
  rfl
theorem exec_str :
    exec (.str r b off6) s = .next (memWrite (s.reg b + sext16 off6) (s.reg r) s) := rfl

end Exec

/-! ### The frame -/

/-- The frame of a flag-setting instruction leaves the keyboard out, so a read before it adds
nothing to it. -/
theorem SetsRegister.of_keyStep {d : Reg} {v : Word} {s u t : State} (h : SetsRegister d v u t)
    (hread : KeyStep s u) : SetsRegister d v s t := by
  rcases hread with rfl | ⟨c, rest, -, rfl⟩
  · exact h
  · exact { h with }

/-- The frame of a store leaves the keyboard out, so a read before it adds nothing to it. -/
theorem Stores.of_keyStep {a v : Word} {s u t : State} (h : Stores a v u t)
    (hread : KeyStep s u) : Stores a v s t := by
  rcases hread with rfl | ⟨c, rest, -, rfl⟩
  · exact h
  · exact { h with }

/-- The end of LD, LDI and LDR: one read of the data, then one `writeResult`. -/
theorem setsRegister_loadFrom (d : Reg) (ea : Word) (s : State) :
    SetsRegister d (memRead ea s).1 s (loadFrom d ea s) :=
  (setsRegister_writeResult d (memRead ea s).1 (memRead ea s).2).of_keyStep (memRead_keyStep ea s)

theorem sameKeyboard_loadFrom (d : Reg) (ea : Word) (s : State) :
    SameKeyboard (memRead ea s).2 (loadFrom d ea s) :=
  sameKeyboard_writeResult d (memRead ea s).1 (memRead ea s).2

/-- `MemWrite` does what a store does, and nothing else (R45). -/
theorem stores_memWrite (a v : Word) (s : State) : Stores a v s (memWrite a v s) where
  cell := read_write_self s.mem a v
  cells := cellsBut_memWrite a v s
  regs r _ := memWrite_reg s a v r
  flag := memWrite_cond s a v
  pc := memWrite_pc s a v
  control := ⟨memWrite_run s a v, memWrite_fault s a v⟩
  output := ⟨memWrite_termOut s a v, memWrite_termRestores s a v⟩

theorem sameKeyboard_memWrite (a v : Word) (s : State) : SameKeyboard s (memWrite a v s) :=
  ⟨memWrite_termIn s a v, memWrite_kbData s a v⟩

/-! ### The statements -/

/-- Settles O33: `decode_of_opcode_ld`, and one `loadFrom` at the PC-relative address. -/
theorem ldResult : Obligations.LdResult := by
  unfold Obligations.LdResult
  exact ⟨fun w hop => decode_of_opcode_ld hop, fun d off s =>
    ⟨_, exec_ld d off s, setsRegister_loadFrom d _ s, sameKeyboard_loadFrom d _ s⟩⟩

/-- Settles O34: the `loadFrom` starts in the state that the pointer's read leaves, and that read
changes at most the keyboard. -/
theorem ldiResult : Obligations.LdiResult := by
  unfold Obligations.LdiResult
  exact ⟨fun w hop => decode_of_opcode_ldi hop, fun d off s =>
    ⟨_, exec_ldi d off s, (setsRegister_loadFrom d _ _).of_keyStep (memRead_keyStep _ s),
      sameKeyboard_loadFrom d _ _⟩⟩

/-- Settles O35: `decode_of_opcode_ldr`, and one `loadFrom` at an address computed from the old base
register, also when DR is that register. -/
theorem ldrResult : Obligations.LdrResult := by
  unfold Obligations.LdrResult
  exact ⟨fun w hop => decode_of_opcode_ldr hop, fun d b off s =>
    ⟨_, exec_ldr d b off s, setsRegister_loadFrom d _ s, sameKeyboard_loadFrom d _ s⟩⟩

/-- Settles O36: LEA is one `writeResult` of the address, with no read before it. -/
theorem leaResult : Obligations.LeaResult := by
  unfold Obligations.LeaResult
  exact ⟨fun w hop => decode_of_opcode_lea hop, fun d off s =>
    exists_setsRegister_of_exec (exec_lea d off s)⟩

/-- Settles O37: `decode_of_opcode_st`, and one `memWrite` at the PC-relative address. -/
theorem stResult : Obligations.StResult := by
  unfold Obligations.StResult
  exact ⟨fun w hop => decode_of_opcode_st hop, fun r off s =>
    ⟨_, exec_st r off s, stores_memWrite _ _ s, sameKeyboard_memWrite _ _ s⟩⟩

/-- Settles O38: the `memWrite` starts in the state that the pointer's read leaves, and that read
changes at most the keyboard. -/
theorem stiResult : Obligations.StiResult := by
  unfold Obligations.StiResult
  exact ⟨fun w hop => decode_of_opcode_sti hop, fun r off s =>
    ⟨_, exec_sti r off s, (stores_memWrite _ _ _).of_keyStep (memRead_keyStep _ s),
      sameKeyboard_memWrite _ _ _⟩⟩

/-- Settles O39: `decode_of_opcode_str`, and one `memWrite` at the base register plus offset. -/
theorem strResult : Obligations.StrResult := by
  unfold Obligations.StrResult
  exact ⟨fun w hop => decode_of_opcode_str hop, fun r b off s =>
    ⟨_, exec_str r b off s, stores_memWrite _ _ s, sameKeyboard_memWrite _ _ s⟩⟩

end Sys2Proof.Machine
end

section
/-! PROOFS. OUT and PUTSP (spec/44_trap.md R153, R156). The fuel of the string loops is measured
against the addresses left to walk before the keyboard words end the string (log 6). -/

namespace Sys2Proof.Machine

/-! ### The encoding -/

/-- Opcode 0xF: the instruction is that of the trap vector (R150). -/
theorem decode_of_opcode_trap {w : Word} {v : BitVec 8} (hop : w.extractLsb' 12 4 = 0xF#4)
    (hvec : w.extractLsb' 0 8 = v) : decode w = decodeTrap (highField w) v := by
  have ho : opcodeOf (opField w) = .trap := opcodeOf_of_extract hop
  rw [decode, ho, ← hvec]
  rfl

/-! ### The result and the frame -/

theorem exec_out (s : State) : exec .out s = .next (termWrite (loByte (s.reg 0)) s) := rfl

/-- PUTSP steps exactly when its loop ends within the fuel, to the state the loop ends in. -/
theorem exec_putsp_eq_next {s t : State} :
    exec .putsp s = .next t ↔ putspLoop (stringFuel s) (s.reg 0) s = some t :=
  stringOutcome_eq_next

/-- What a string routine leaves alone includes what every trap routine leaves alone (R160). -/
theorem StringFrame.routineFrame {s t : State} (h : StringFrame s t) : RoutineFrame [] s t where
  regs r _ := by rw [State.reg, State.reg, h.x]
  flag := h.cond
  pc := h.pc
  cells a _ := by rw [h.mem]
  fault := h.fault

/-! ### One round of the loop of PUTSP -/

section PutspRound

variable {n : Nat} {a : Word} {s : State}

theorem putspLoop_low_zero (hlo : loByte (memRead a s).1 = 0x00#8) :
    putspLoop (n + 1) a s = some (memRead a s).2 := if_pos hlo

theorem putspLoop_high_zero (hlo : loByte (memRead a s).1 ≠ 0x00#8)
    (hhi : hiByte (memRead a s).1 = 0x00#8) :
    putspLoop (n + 1) a s = some (termWrite (loByte (memRead a s).1) (memRead a s).2) :=
  (if_neg hlo).trans (if_pos hhi)

theorem putspLoop_full (hlo : loByte (memRead a s).1 ≠ 0x00#8)
    (hhi : hiByte (memRead a s).1 ≠ 0x00#8) :
    putspLoop (n + 1) a s = putspLoop n (a + 1#16)
      (termWrite (hiByte (memRead a s).1) (termWrite (loByte (memRead a s).1) (memRead a s).2)) :=
  (if_neg hlo).trans (if_neg hhi)

end PutspRound

/-! ### The fuel of the string loops -/

/-- The keyboard word that matters next to a string: with a character waiting the data word, where
the read takes it; with none the status word, which reads 0x0000 and ends the string. -/
def nextKeyWord : List Byte → Word
  | [] => Config.kbsrAddr
  | _ :: _ => Config.kbdrAddr

/-- A bound on the cells a string at the address `a` has before its last one, with the characters
`q` waiting: a lap for each character, and the way to the keyboard word that matters next. -/
def roundsLeft (a : Word) (q : List Byte) : Nat :=
  Config.memCells * q.length + (nextKeyWord q - a).toNat

theorem roundsLeft_lt (a : Word) (q : List Byte) :
    roundsLeft a q < Config.memCells * (q.length + 1) :=
  Nat.add_lt_add_left (nextKeyWord q - a).isLt _

theorem roundsLeft_lt_stringFuel (a : Word) (s : State) : roundsLeft a s.termIn < stringFuel s := by
  rw [stringFuel_eq]
  exact roundsLeft_lt a s.termIn

/-- Away from the keyboard word that matters next, the next address is nearer to it. -/
theorem roundsLeft_succ_lt {a : Word} {q : List Byte} (h : a ≠ nextKeyWord q) :
    roundsLeft (a + 1#16) q < roundsLeft a q := by
  have hnear : (nextKeyWord q - (a + 1#16)).toNat < (nextKeyWord q - a).toNat := by
    generalize nextKeyWord q = k at h
    bv_omega
  exact Nat.add_lt_add_left hnear _

/-- A character taken is worth a lap. -/
theorem roundsLeft_tail_lt (a b : Word) (c : Byte) (rest : List Byte) :
    roundsLeft b rest < roundsLeft a (c :: rest) :=
  Nat.lt_add_right _ (roundsLeft_lt b rest)

/-- A round that reads a word other than 0x0000 leaves fewer rounds: at the status word it has a
character still to take, at the data word it takes one or walks on to the status word, elsewhere it
comes nearer to the keyboard word that matters next. -/
theorem roundsLeft_memRead_lt {a : Word} {s : State} (hword : (memRead a s).1 ≠ 0x0000#16) :
    roundsLeft (a + 1#16) (memRead a s).2.termIn < roundsLeft a s.termIn := by
  have hne : Config.kbsrAddr ≠ Config.kbdrAddr := by decide
  rcases memRead_cases a s with ⟨rfl, hr⟩ | ⟨rfl, hr⟩ | ⟨hsr, hdr, hr⟩ <;> rw [hr] at hword ⊢
  · cases hq : s.termIn with
    | nil => exact absurd (by simp [kbsrWord, termAvail, hq]) hword
    | cons c rest => exact roundsLeft_succ_lt hne
  · cases hq : s.termIn with
    | nil =>
      rw [readKbdr, takeKey_nil hq, hq]
      exact roundsLeft_succ_lt hne.symm
    | cons c rest =>
      rw [readKbdr, takeKey_cons hq]
      exact roundsLeft_tail_lt _ _ c rest
  · cases hq : s.termIn with
    | nil => exact roundsLeft_succ_lt hsr
    | cons c rest => exact roundsLeft_succ_lt hdr

/-! ### The loop with fuel and the loop of the spec -/

theorem ne_zero_of_loByte_ne_zero {w : Word} (h : loByte w ≠ 0x00#8) : w ≠ 0x0000#16 := by
  rintro rfl
  exact h rfl

/-- What the loop with fuel ends in, the loop of R156 ends in. -/
theorem putspEnds_of_putspLoop {n : Nat} {a : Word} {s t : State}
    (h : putspLoop n a s = some t) : PutspEnds a s t := by
  induction n generalizing a s with
  | zero => cases h
  | succ n ih =>
    by_cases hlo : loByte (memRead a s).1 = 0x00#8
    · cases (putspLoop_low_zero hlo).symm.trans h
      exact .stopLow hlo
    · by_cases hhi : hiByte (memRead a s).1 = 0x00#8
      · cases (putspLoop_high_zero hlo hhi).symm.trans h
        exact .stopHigh hlo hhi
      · exact .chars hlo hhi (ih ((putspLoop_full hlo hhi).symm.trans h))

/-- What the loop of R156 ends in, the loop with more fuel than rounds left ends in. -/
theorem putspLoop_of_putspEnds {n : Nat} {a : Word} {s t : State} (h : PutspEnds a s t)
    (hn : roundsLeft a s.termIn < n) : putspLoop n a s = some t := by
  induction n generalizing a s with
  | zero => cases hn
  | succ n ih =>
    cases h with
    | stopLow hlo => exact putspLoop_low_zero hlo
    | stopHigh hlo hhi => exact putspLoop_high_zero hlo hhi
    | chars hlo hhi hrest =>
      have hless := roundsLeft_memRead_lt (ne_zero_of_loByte_ne_zero hlo)
      exact (putspLoop_full hlo hhi).trans (ih hrest (hless.trans_le (Nat.le_of_lt_succ hn)))

/-! ### The statements -/

/-- Settles O45: the fuel exceeds the rounds left, so the loop with fuel and the loop of R156 end in
the same states; the frame is `execPutsp_frame`. -/
theorem putspResult : Obligations.PutspResult := by
  unfold Obligations.PutspResult
  refine ⟨fun w hop hvec => (decode_of_opcode_trap hop hvec).trans (decodeTrap_putsp _),
    fun s t => ⟨exec_putsp_eq_next.trans ⟨putspEnds_of_putspLoop, fun h =>
      putspLoop_of_putspEnds h (roundsLeft_lt_stringFuel _ s)⟩, fun h => ?_⟩⟩
  have hframe : StringFrame s t := execPutsp_frame h
  exact ⟨hframe.routineFrame, hframe.run, hframe.termRestores⟩

/-- Settles O42: OUT is one `termWrite`, which has the frame of the string routines and reads no
key. -/
theorem outResult : Obligations.OutResult := by
  unfold Obligations.OutResult
  refine ⟨fun w hop hvec => (decode_of_opcode_trap hop hvec).trans (decodeTrap_out _),
    fun s => ⟨_, exec_out s, termWrite_termOut s _, ?_, ⟨termWrite_termIn s _, termWrite_kbData s _⟩,
      termWrite_run s _, termWrite_termRestores s _⟩⟩
  exact (stringFrame_termWrite _ (.refl s)).routineFrame

end Sys2Proof.Machine
end

section
/-! PROOFS. The image format: a word and its two bytes, high byte first
(spec/70_reset_and_hazards.md R203). -/

namespace Sys2Proof.Machine

/-- The two bytes of a word, put together as the parser does, are the word. -/
theorem highByte_append_lowByte (w : Word) :
    (w.extractLsb' 8 8 ++ w.extractLsb' 0 8 : Word) = w :=
  append_extract (m := 8) (n := 8) w

/-- Words written high byte first parse to themselves, by induction on the words. -/
theorem parseWords_bigEndian (ws : List Word) :
    parseWords (ws.flatMap fun w => [w.extractLsb' 8 8, w.extractLsb' 0 8]) = .ok ws := by
  induction ws with
  | nil => rfl
  | cons w ws ih =>
    rw [List.flatMap_cons, List.cons_append, List.singleton_append, parseWords, ih,
      highByte_append_lowByte, Except.map]

/-- Settles O57: the origin is one word's bytes, and the rest is `parseWords_bigEndian`; the two
examples are evaluated. -/
theorem imageFormatIsBigEndian : Obligations.ImageFormatIsBigEndian := by
  unfold Obligations.ImageFormatIsBigEndian
  refine ⟨fun i => ?_, rfl, rfl⟩
  rw [parseImage, parseWords_bigEndian, highByte_append_lowByte, Except.map]

end Sys2Proof.Machine
end

section
/-! PROOFS. The encoding: decode of encode, the table rows, and the ignored bits (spec/30_encoding.md
R71 to R80). -/

namespace Sys2Proof

open Machine

/-! ### The fields of BR, JSR, JSRR, JMP and NOT -/

section Formats

variable (n z p : Bool) (d b : Reg) (off9 : BitVec 9) (off11 : BitVec 11)

theorem encode_br_n : (encode (.br n z p off9)).getLsbD 11 = n :=
  (bit_append_upper (m := 7) _ off9 2).trans <|
    (bit_append_upper (m := 6) _ (BitVec.ofBool p) 1).trans <|
      (bit_append_upper (m := 5) _ (BitVec.ofBool z) 0).trans <| by
        cases n <;> decide
theorem encode_br_z : (encode (.br n z p off9)).getLsbD 10 = z :=
  (bit_append_upper (m := 7) _ off9 1).trans <|
    (bit_append_upper (m := 6) _ (BitVec.ofBool p) 0).trans <| by
      cases n <;> cases z <;> decide
theorem encode_br_p : (encode (.br n z p off9)).getLsbD 9 = p :=
  (bit_append_upper (m := 7) _ off9 0).trans <| by
    cases n <;> cases z <;> cases p <;> decide
theorem encode_br_off9 : off9Field (encode (.br n z p off9)) = off9 :=
  extract_append_low (m := 7) _ off9

theorem encode_jsr_bit11 : (encode (.jsr off11)).getLsbD 11 = true :=
  bit_append_upper (m := 5) _ off11 0
theorem encode_jsr_off11 : off11Field (encode (.jsr off11)) = off11 :=
  extract_append_low (m := 5) _ off11

/-- A register in ir[8:6] above six fixed bits: the formats of JMP, JSRR and NOT. -/
theorem srField_append (x : BitVec 7) (low : BitVec 6) :
    srField (x ++ regBits b ++ low : Word) = b :=
  congrArg (fun f : BitVec 3 => f.toFin) <|
    (extract_append_upper (m := 10) (x ++ regBits b) low 0 3).trans (extract_append_low x (regBits b))

theorem encode_jsrr_bit11 : (encode (.jsrr b)).getLsbD 11 = false :=
  (bit_append_upper (m := 10) _ 0b000000#6 5).trans <|
    (bit_append_upper (m := 7) _ (regBits b) 2).trans (by decide)
theorem encode_jsrr_sr : srField (encode (.jsrr b)) = b := srField_append b _ _
theorem encode_jmp_sr : srField (encode (.jmp b)) = b := srField_append b _ _
theorem encode_not_sr : srField (encode (.not d b)) = b := srField_append b _ _
theorem encode_not_dr : drField (encode (.not d b)) = d :=
  congrArg (fun f : BitVec 3 => f.toFin) <|
    (extract_append_upper (m := 10) _ 0b111111#6 3 3).trans <|
      (extract_append_upper (m := 7) _ (regBits b) 0 3).trans (extract_append_low _ _)

end Formats

/-! ### The opcodes that fault -/

/-- Opcode 0x8 (R170). -/
theorem decode_of_opcode_rti {w : Word} (h : w.extractLsb' 12 4 = 0x8#4) :
    decode w = .rti (lowField w) := by
  have ho : opcodeOf (opField w) = .rti := opcodeOf_of_extract h
  rw [decode, ho]

/-- Opcode 0xD (R171). -/
theorem decode_of_opcode_res {w : Word} (h : w.extractLsb' 12 4 = 0xD#4) :
    decode w = .res (lowField w) := by
  have ho : opcodeOf (opField w) = .res := opcodeOf_of_extract h
  rw [decode, ho]

/-! ### Decode of encode -/

/-- The words of the TRAP format go to the trap dispatch. -/
theorem decode_encodeT (h : BitVec 4) (v : BitVec 8) : decode (encodeT h v) = decodeTrap h v := by
  rw [decode_of_opcode_trap (encodeT_op h v) (encodeT_vec h v), encodeT_high]

/-- The two bounds that well-formedness puts on an undefined vector. -/
theorem vectorIn_iff {lo hi v : BitVec 8} : vectorIn lo hi v = true ↔ lo ≤ v ∧ v ≤ hi :=
  decide_eq_true_iff

/-- Settles O1, constructor by constructor: the opcode of the encoding selects the arm of the
decoder, and each field reads back what the format put there. -/
theorem decodeOfEncodeIsIdentity : Obligations.DecodeOfEncodeIsIdentity := by
  unfold Obligations.DecodeOfEncodeIsIdentity
  intro i hwf
  cases i with
  | br n z p off =>
    rw [decode_of_opcode_br (Laws.EncodesOpcode.br n z p off), encode_br_n, encode_br_z,
      encode_br_p, encode_br_off9]
  | add d a b =>
    rw [encode, decode_of_opcode_add (encodeRR_op .add d a b), encodeRR_bit5]
    simp
  | addImm d a imm => simp [encode, decode_of_opcode_add (encodeRI_op .add d a imm)]
  | and d a b =>
    rw [encode, decode_of_opcode_and (encodeRR_op .and d a b), encodeRR_bit5]
    simp
  | andImm d a imm => simp [encode, decode_of_opcode_and (encodeRI_op .and d a imm)]
  | not d a =>
    rw [decode_of_opcode_not (Laws.EncodesOpcode.not d a), encode_not_dr, encode_not_sr]
  | jsr off =>
    rw [decode_of_opcode_jsr (Laws.EncodesOpcode.jsr off), encode_jsr_bit11, encode_jsr_off11]
    rfl
  | jsrr b =>
    rw [decode_of_opcode_jsr (Laws.EncodesOpcode.jsrr b), encode_jsrr_bit11, encode_jsrr_sr]
    rfl
  | jmp b => rw [decode_of_opcode_jmp (Laws.EncodesOpcode.jmp b), encode_jmp_sr]
  | ld d off => simp [encode, decode_of_opcode_ld (encodeM9_op .ld d off)]
  | ldi d off => simp [encode, decode_of_opcode_ldi (encodeM9_op .ldi d off)]
  | lea d off => simp [encode, decode_of_opcode_lea (encodeM9_op .lea d off)]
  | st r off => simp [encode, decode_of_opcode_st (encodeM9_op .st r off)]
  | sti r off => simp [encode, decode_of_opcode_sti (encodeM9_op .sti r off)]
  | ldr d b off => simp [encode, decode_of_opcode_ldr (encodeM6_op .ldr d b off)]
  | str r b off => simp [encode, decode_of_opcode_str (encodeM6_op .str r b off)]
  | rti low => simp [encode, decode_of_opcode_rti (encodeU_op .rti low)]
  | res low => simp [encode, decode_of_opcode_res (encodeU_op .res low)]
  | getc | out | puts | inChar | putsp | halt => exact decode_encodeT _ _
  | trapUndef001F h v =>
    exact (decode_encodeT h v).trans (decodeTrap_001F h (vectorIn_iff.mp hwf).2)
  | trapUndef2627 h v =>
    obtain ⟨hlo, hhi⟩ := vectorIn_iff.mp hwf
    exact (decode_encodeT h v).trans (decodeTrap_2627 h hlo hhi)
  | trapUndef282F h v =>
    obtain ⟨hlo, hhi⟩ := vectorIn_iff.mp hwf
    exact (decode_encodeT h v).trans (decodeTrap_282F h hlo hhi)
  | trapUndef303F h v =>
    obtain ⟨hlo, hhi⟩ := vectorIn_iff.mp hwf
    exact (decode_encodeT h v).trans (decodeTrap_303F h hlo hhi)
  | trapUndef407F h v =>
    obtain ⟨hlo, hhi⟩ := vectorIn_iff.mp hwf
    exact (decode_encodeT h v).trans (decodeTrap_407F h hlo hhi)
  | trapUndef80FF h v =>
    exact (decode_encodeT h v).trans (decodeTrap_80FF h (vectorIn_iff.mp hwf).1)


/-! ### The words that fault are the encodings of their fields -/

/-- A slice of a slice. -/
theorem extract_extract {n : Nat} (w : BitVec n) (j k len l : Nat) (h : k + len ≤ l) :
    (w.extractLsb' j l).extractLsb' k len = w.extractLsb' (j + k) len := by
  ext i hi
  have hil : k + i < l := by omega
  simp [hil, Nat.add_assoc]

/-- A TRAP word has no bits but its opcode, ir[11:8] and the vector. -/
theorem encodeT_fields {w : Word} (hop : w.extractLsb' 12 4 = 0xF#4) :
    encodeT (highField w) (vecField w) = w := by
  have hupper : (0xF#4 ++ highField w : BitVec 8) = w.extractLsb' 8 8 := by
    rw [← append_extract (m := 4) (n := 4) (w.extractLsb' 8 8), extract_extract w 8 4 4 8 (by omega),
      extract_extract w 8 0 4 8 (by omega), hop]
    rfl
  exact (congrArg (· ++ vecField w) hupper).trans (append_extract (m := 8) (n := 8) w)

/-- An undefined vector is recorded whole: its instruction keeps every bit of the word. -/
theorem encode_decodeTrap {v : BitVec 8} (h : BitVec 4) (hv : v < 0x20#8 ∨ 0x25#8 < v) :
    encode (decodeTrap h v) = encodeT h v := by
  rcases decodeTrap_undefined h hv with
    ⟨-, e⟩ | ⟨-, -, e⟩ | ⟨-, -, e⟩ | ⟨-, -, e⟩ | ⟨-, -, e⟩ | ⟨-, e⟩ <;> rw [e] <;> rfl

/-- A TRAP word with an undefined vector is the encoding of what it decodes to. -/
theorem encode_decode_of_undefined_vector {w : Word} (hop : w.extractLsb' 12 4 = 0xF#4)
    (hv : w.extractLsb' 0 8 < 0x20#8 ∨ 0x25#8 < w.extractLsb' 0 8) : encode (decode w) = w := by
  rw [decode_of_opcode_trap hop rfl, encode_decodeTrap _ hv]
  exact encodeT_fields hop

/-! ### Membership in a row of the table -/

/-- The rows that look at the opcode alone. -/
theorem and_opcode_mask {w : Word} {b : BitVec 4} (hop : w.extractLsb' 12 4 = b) :
    w &&& 0xF000#16 = b ++ 0#12 := by
  have hw : w = w.extractLsb' 12 4 ++ lowField w := (append_extract (m := 4) (n := 12) w).symm
  have hmask : 0xF000#16 = 0xF#4 ++ 0#12 := rfl
  rw [hw, hop, hmask, BitVec.and_append, BitVec.and_zero]
  exact congrArg (· ++ 0#12) BitVec.and_allOnes

/-- The rows that look at the opcode and one more bit. -/
theorem and_opcode_bit_mask {w : Word} {b : BitVec 4} (hop : w.extractLsb' 12 4 = b) (k : Nat) :
    w &&& (0xF000#16 ||| BitVec.twoPow 16 k) =
      (b ++ 0#12) ||| if w.getLsbD k then BitVec.twoPow 16 k else 0#16 := by
  rw [BitVec.and_or_distrib_left, and_opcode_mask hop, BitVec.and_twoPow]

/-- The rows of TRAP look at the opcode and at bits of the vector. -/
theorem and_trap_mask {w : Word} (hop : w.extractLsb' 12 4 = 0xF#4) (m : BitVec 8) :
    w &&& (0xF0#8 ++ m) = 0xF0#8 ++ (vecField w &&& m) := by
  have hupper : (0xF#4 ++ highField w : BitVec 8) &&& (0xF#4 ++ 0#4) = 0xF0#8 := by
    rw [BitVec.and_append, BitVec.and_zero]
    rfl
  calc w &&& (0xF0#8 ++ m)
    _ = encodeT (highField w) (vecField w) &&& (0xF0#8 ++ m) := by rw [encodeT_fields hop]
    _ = ((0xF#4 ++ highField w : BitVec 8) &&& (0xF#4 ++ 0#4)) ++ (vecField w &&& m) :=
      BitVec.and_append
    _ = 0xF0#8 ++ (vecField w &&& m) := by rw [hupper]

/-- No word belongs to two rows: where both masks look, the patterns differ. -/
theorem tableRows_disjoint :
    ∀ q ∈ tableRows, ∀ r ∈ tableRows, q.pattern &&& r.mask = r.pattern &&& q.mask → q = r := by
  decide

theorem TableRow.eq_of_holds {q r : TableRow} (hq : q ∈ tableRows) (hr : r ∈ tableRows) {w : Word}
    (hqw : q.holds w = true) (hrw : r.holds w = true) : q = r := by
  refine tableRows_disjoint q hq r hr ?_
  rw [← eq_of_beq hqw, ← eq_of_beq hrw, BitVec.and_assoc, BitVec.and_assoc,
    BitVec.and_comm q.mask]

/-- The mask of a row of undefined vectors shows the bits that are fixed in its range (R73). -/
theorem vector_range_mask (v : BitVec 8) :
    (v ≤ 0x1F#8 → v &&& 0xE0#8 = 0x00#8) ∧
    (0x26#8 ≤ v → v ≤ 0x27#8 → v &&& 0xFE#8 = 0x26#8) ∧
    (0x28#8 ≤ v → v ≤ 0x2F#8 → v &&& 0xF8#8 = 0x28#8) ∧
    (0x30#8 ≤ v → v ≤ 0x3F#8 → v &&& 0xF0#8 = 0x30#8) ∧
    (0x40#8 ≤ v → v ≤ 0x7F#8 → v &&& 0xC0#8 = 0x40#8) ∧
    (0x80#8 ≤ v → v &&& 0x80#8 = 0x80#8) := by
  revert v
  decide

/-- A word decodes to a well-formed instruction and belongs to the row of that instruction's
name. -/
def HasRow (w : Word) : Prop :=
  (decode w).wf = true ∧ ∃ r ∈ tableRows, r.holds w = true ∧ r.mnemonic = (decode w).mnemonic

/-- A row found for a word makes `HasRow`. -/
theorem HasRow.of_row {w : Word} {i : Instr} {r : TableRow} (hi : decode w = i)
    (hwf : i.wf = true) (hw : w &&& r.mask = r.pattern) (hr : r ∈ tableRows)
    (hname : r.mnemonic = i.mnemonic) : HasRow w := by
  subst hi
  exact ⟨hwf, r, hr, beq_iff_eq.mpr hw, hname⟩

theorem HasRow.of_opcode {w : Word} {b : BitVec 4} {i : Instr} (name : String)
    (hop : w.extractLsb' 12 4 = b) (hi : decode w = i) (hwf : i.wf = true)
    (hr : ⟨name, 0xF000#16, b ++ 0#12⟩ ∈ tableRows) (hname : name = i.mnemonic) : HasRow w :=
  .of_row hi hwf (and_opcode_mask hop) hr hname

theorem HasRow.of_vector {w : Word} {m p : BitVec 8} {i : Instr} (name : String)
    (hop : w.extractLsb' 12 4 = 0xF#4) (hm : vecField w &&& m = p) (hi : decode w = i)
    (hwf : i.wf = true) (hr : ⟨name, 0xF0#8 ++ m, 0xF0#8 ++ p⟩ ∈ tableRows)
    (hname : name = i.mnemonic) : HasRow w :=
  .of_row hi hwf ((and_trap_mask hop m).trans (congrArg (0xF0#8 ++ ·) hm)) hr hname

/-- Every TRAP word has a row: a defined vector is looked at whole, of an undefined one the bits
that its range fixes. -/
theorem hasRow_trap {w : Word} (hop : w.extractLsb' 12 4 = 0xF#4) : HasRow w := by
  have hdec : decode w = decodeTrap (highField w) (vecField w) := decode_of_opcode_trap hop rfl
  have hall : vecField w &&& 0xFF#8 = vecField w := BitVec.and_allOnes
  rcases vector_defined_or_not (vecField w) with hv | hv
  · rcases hv with hv | hv | hv | hv | hv | hv <;> rw [hv] at hdec <;>
      have hm := hall.trans hv
    · exact .of_vector "GETC" hop hm hdec rfl (by decide) rfl
    · exact .of_vector "OUT" hop hm hdec rfl (by decide) rfl
    · exact .of_vector "PUTS" hop hm hdec rfl (by decide) rfl
    · exact .of_vector "IN" hop hm hdec rfl (by decide) rfl
    · exact .of_vector "PUTSP" hop hm hdec rfl (by decide) rfl
    · exact .of_vector "HALT" hop hm hdec rfl (by decide) rfl
  · obtain ⟨m00, m26, m28, m30, m40, m80⟩ := vector_range_mask (vecField w)
    rcases decodeTrap_undefined (highField w) hv with
      ⟨hhi, e⟩ | ⟨hlo, hhi, e⟩ | ⟨hlo, hhi, e⟩ | ⟨hlo, hhi, e⟩ | ⟨hlo, hhi, e⟩ | ⟨hlo, e⟩ <;>
      rw [e] at hdec
    · exact .of_vector "TRAP_UNDEF_00_1F" hop (m00 hhi) hdec
        (vectorIn_iff.mpr ⟨by bv_omega, hhi⟩) (by decide) rfl
    · exact .of_vector "TRAP_UNDEF_26_27" hop (m26 hlo hhi) hdec
        (vectorIn_iff.mpr ⟨hlo, hhi⟩) (by decide) rfl
    · exact .of_vector "TRAP_UNDEF_28_2F" hop (m28 hlo hhi) hdec
        (vectorIn_iff.mpr ⟨hlo, hhi⟩) (by decide) rfl
    · exact .of_vector "TRAP_UNDEF_30_3F" hop (m30 hlo hhi) hdec
        (vectorIn_iff.mpr ⟨hlo, hhi⟩) (by decide) rfl
    · exact .of_vector "TRAP_UNDEF_40_7F" hop (m40 hlo hhi) hdec
        (vectorIn_iff.mpr ⟨hlo, hhi⟩) (by decide) rfl
    · exact .of_vector "TRAP_UNDEF_80_FF" hop (m80 hlo) hdec
        (vectorIn_iff.mpr ⟨hlo, by bv_omega⟩) (by decide) rfl

/-- Every word has a row, opcode by opcode; ADD and AND look at ir[5] too, opcode 0x4 at ir[11]. -/
theorem hasRow (w : Word) : HasRow w := by
  have hop : w.extractLsb' 12 4 = opcodeBits (opcodeOf (opField w)) :=
    (opcodeBits_opcodeOf (opField w)).symm
  cases ho : opcodeOf (opField w) <;> rw [ho] at hop
  case br => exact .of_opcode "BR" hop (decode_of_opcode_br hop) rfl (by decide) rfl
  case ld => exact .of_opcode "LD" hop (decode_of_opcode_ld hop) rfl (by decide) rfl
  case st => exact .of_opcode "ST" hop (decode_of_opcode_st hop) rfl (by decide) rfl
  case ldr => exact .of_opcode "LDR" hop (decode_of_opcode_ldr hop) rfl (by decide) rfl
  case str => exact .of_opcode "STR" hop (decode_of_opcode_str hop) rfl (by decide) rfl
  case rti => exact .of_opcode "RTI" hop (decode_of_opcode_rti hop) rfl (by decide) rfl
  case not => exact .of_opcode "NOT" hop (decode_of_opcode_not hop) rfl (by decide) rfl
  case ldi => exact .of_opcode "LDI" hop (decode_of_opcode_ldi hop) rfl (by decide) rfl
  case sti => exact .of_opcode "STI" hop (decode_of_opcode_sti hop) rfl (by decide) rfl
  case jmp => exact .of_opcode "JMP" hop (decode_of_opcode_jmp hop) rfl (by decide) rfl
  case res => exact .of_opcode "RES" hop (decode_of_opcode_res hop) rfl (by decide) rfl
  case lea => exact .of_opcode "LEA" hop (decode_of_opcode_lea hop) rfl (by decide) rfl
  case trap => exact hasRow_trap hop
  case add =>
    have hmask := and_opcode_bit_mask hop 5
    have hdec := decode_of_opcode_add hop
    cases h5 : w.getLsbD 5 <;> rw [h5] at hmask hdec
    · exact .of_row (r := ⟨"ADD", 0xF020, 0x1000⟩) hdec rfl hmask (by decide) rfl
    · exact .of_row (r := ⟨"ADD_imm", 0xF020, 0x1020⟩) hdec rfl hmask (by decide) rfl
  case and =>
    have hmask := and_opcode_bit_mask hop 5
    have hdec := decode_of_opcode_and hop
    cases h5 : w.getLsbD 5 <;> rw [h5] at hmask hdec
    · exact .of_row (r := ⟨"AND", 0xF020, 0x5000⟩) hdec rfl hmask (by decide) rfl
    · exact .of_row (r := ⟨"AND_imm", 0xF020, 0x5020⟩) hdec rfl hmask (by decide) rfl
  case jsr =>
    have hmask := and_opcode_bit_mask hop 11
    have hdec := decode_of_opcode_jsr hop
    cases h11 : w.getLsbD 11 <;> rw [h11] at hmask hdec
    · exact .of_row (r := ⟨"JSRR", 0xF800, 0x4000⟩) hdec rfl hmask (by decide) rfl
    · exact .of_row (r := ⟨"JSR", 0xF800, 0x4800⟩) hdec rfl hmask (by decide) rfl

/-- Settles O2: `hasRow` finds the row, and no word belongs to two. -/
theorem everyWordBelongsToExactlyOneTableRow :
    Obligations.EveryWordBelongsToExactlyOneTableRow := by
  unfold Obligations.EveryWordBelongsToExactlyOneTableRow
  refine ⟨rfl, fun w => ?_⟩
  obtain ⟨hwf, r, hr, hw, hname⟩ := hasRow w
  exact ⟨hwf, r, hr, hw, hname, fun q hq hqw => TableRow.eq_of_holds hq hr hqw hw⟩

/-! ### Ignored bits -/

section IgnoredBits

variable {v w m : Word}

/-- Words that agree under a mask agree on a slice that the mask covers. -/
theorem extract_eq_of_and_eq (h : v &&& m = w &&& m) {k len : Nat}
    (hm : m.extractLsb' k len = BitVec.allOnes len) : v.extractLsb' k len = w.extractLsb' k len := by
  have hs := congrArg (fun x : Word => x.extractLsb' k len) h
  simpa only [BitVec.extractLsb'_and, hm, BitVec.and_allOnes] using hs

/-- Words that agree under a mask agree on a bit that the mask covers. -/
theorem bit_eq_of_and_eq (h : v &&& m = w &&& m) {k : Nat} (hm : m.getLsbD k = true) :
    v.getLsbD k = w.getLsbD k := by
  have hs := congrArg (fun x : Word => x.getLsbD k) h
  simpa only [BitVec.getLsbD_and, hm, Bool.and_true] using hs

theorem drField_eq_of_and_eq (h : v &&& m = w &&& m) (hm : m.extractLsb' 9 3 = 0b111#3) :
    drField v = drField w := congrArg (fun f : BitVec 3 => f.toFin) (extract_eq_of_and_eq h hm)

theorem srField_eq_of_and_eq (h : v &&& m = w &&& m) (hm : m.extractLsb' 6 3 = 0b111#3) :
    srField v = srField w := congrArg (fun f : BitVec 3 => f.toFin) (extract_eq_of_and_eq h hm)

theorem sr2Field_eq_of_and_eq (h : v &&& m = w &&& m) (hm : m.extractLsb' 0 3 = 0b111#3) :
    sr2Field v = sr2Field w := congrArg (fun f : BitVec 3 => f.toFin) (extract_eq_of_and_eq h hm)

/-- ADD and AND in register form do not look at ir[4:3] (R76). -/
theorem decode_eq_of_register_form
    (hop : w.extractLsb' 12 4 = 0x1#4 ∨ w.extractLsb' 12 4 = 0x5#4) (h5 : w.getLsbD 5 = false)
    (h : v &&& 0xFFE7#16 = w &&& 0xFFE7#16) : decode v = decode w := by
  have hop' : v.extractLsb' 12 4 = w.extractLsb' 12 4 := extract_eq_of_and_eq h rfl
  have h5' : v.getLsbD 5 = w.getLsbD 5 := bit_eq_of_and_eq h rfl
  rcases hop with hop | hop
  · rw [decode_of_opcode_add hop, decode_of_opcode_add (hop'.trans hop), h5', h5,
      drField_eq_of_and_eq h rfl, srField_eq_of_and_eq h rfl, sr2Field_eq_of_and_eq h rfl]
    rfl
  · rw [decode_of_opcode_and hop, decode_of_opcode_and (hop'.trans hop), h5', h5,
      drField_eq_of_and_eq h rfl, srField_eq_of_and_eq h rfl, sr2Field_eq_of_and_eq h rfl]
    rfl

/-- JSRR is opcode 0x4 with ir[11] = 0. -/
theorem jsrr_bits (h : w.extractLsb' 11 5 = 0b01000#5) :
    w.extractLsb' 12 4 = 0x4#4 ∧ w.getLsbD 11 = false := by
  constructor
  · rw [← extract_extract w 11 1 4 5 (by omega), h]
    rfl
  · have h0 := congrArg (fun x : BitVec 5 => x.getLsbD 0) h
    simpa using h0

/-- The row of a TRAP word does not depend on ir[11:8]. -/
theorem decodeTrap_mnemonic (h h' : BitVec 4) (v : BitVec 8) :
    (decodeTrap h v).mnemonic = (decodeTrap h' v).mnemonic := by
  simp only [decodeTrap, apply_ite Instr.mnemonic]
  rfl

/-- A defined vector decodes to the same routine whatever ir[11:8] holds. -/
theorem decodeTrap_defined (h h' : BitVec 4) {v : BitVec 8} (hlo : 0x20#8 ≤ v) (hhi : v ≤ 0x25#8) :
    decodeTrap h v = decodeTrap h' v := by
  rcases vector_defined_or_not v with hv | hv
  · rcases hv with rfl | rfl | rfl | rfl | rfl | rfl <;> rfl
  · bv_omega

end IgnoredBits

/-- Settles O3: each mask covers the fields that the decoder reads of that opcode. -/
theorem ignoredBitsDoNotChangeDecoding : Obligations.IgnoredBitsDoNotChangeDecoding := by
  unfold Obligations.IgnoredBitsDoNotChangeDecoding
  intro w v
  refine ⟨decode_eq_of_register_form, fun hop h => ?_, fun hop h => ?_, fun hop h => ?_,
    fun hop hlo hhi h => ?_, fun hop => decode_of_opcode_rti hop, fun hop => decode_of_opcode_res hop,
    fun hop hv => ⟨encode_decode_of_undefined_vector hop hv, fun h => ?_⟩⟩
  · have hop' := (extract_eq_of_and_eq h rfl).trans hop
    rw [decode_of_opcode_not hop, decode_of_opcode_not hop', drField_eq_of_and_eq h rfl,
      srField_eq_of_and_eq h rfl]
  · have hop' := (extract_eq_of_and_eq h rfl).trans hop
    rw [decode_of_opcode_jmp hop, decode_of_opcode_jmp hop', srField_eq_of_and_eq h rfl]
  · obtain ⟨hop4, h11⟩ := jsrr_bits hop
    obtain ⟨hop4', h11'⟩ := jsrr_bits ((extract_eq_of_and_eq h rfl).trans hop)
    rw [decode_of_opcode_jsr hop4, decode_of_opcode_jsr hop4', h11, h11', srField_eq_of_and_eq h rfl]
    rfl
  · have hop' := (extract_eq_of_and_eq h rfl).trans hop
    rw [decode_of_opcode_trap hop rfl, decode_of_opcode_trap hop' (extract_eq_of_and_eq h rfl)]
    exact decodeTrap_defined _ _ hlo hhi
  · have hop' := (extract_eq_of_and_eq h rfl).trans hop
    rw [decode_of_opcode_trap hop rfl, decode_of_opcode_trap hop' (extract_eq_of_and_eq h rfl)]
    exact decodeTrap_mnemonic _ _ _

/-- Settles O4: the decoder is evaluated on each word. -/
theorem specExampleWordsDecode : Obligations.SpecExampleWordsDecode := by
  unfold Obligations.SpecExampleWordsDecode
  decide

end Sys2Proof
end

section
/-! PROOFS. PUTS and PUTSP: the loop of the spec ends from every state, and what the two routines
write of a string in plain memory (spec/44_trap.md R154, R156). -/

namespace Sys2Proof.Machine

/-! ### One round of the loop of PUTS, and the loop with fuel -/

section PutsRound

variable {n : Nat} {a : Word} {s : State}

theorem putsLoop_zero_word (hw : (memRead a s).1 = 0x0000#16) :
    putsLoop (n + 1) a s = some (memRead a s).2 := if_pos hw

theorem putsLoop_char (hw : (memRead a s).1 ≠ 0x0000#16) :
    putsLoop (n + 1) a s =
      putsLoop n (a + 1#16) (termWrite (loByte (memRead a s).1) (memRead a s).2) := if_neg hw

end PutsRound

/-- What the loop with fuel ends in, the loop of R154 ends in. -/
theorem putsEnds_of_putsLoop {n : Nat} {a : Word} {s t : State} (h : putsLoop n a s = some t) :
    PutsEnds a s t := by
  induction n generalizing a s with
  | zero => cases h
  | succ n ih =>
    by_cases hw : (memRead a s).1 = 0x0000#16
    · cases (putsLoop_zero_word hw).symm.trans h
      exact .stop hw
    · exact .char hw (ih ((putsLoop_char hw).symm.trans h))

/-- What the loop of R154 ends in, the loop with more fuel than rounds left ends in. -/
theorem putsLoop_of_putsEnds {n : Nat} {a : Word} {s t : State} (h : PutsEnds a s t)
    (hn : roundsLeft a s.termIn < n) : putsLoop n a s = some t := by
  induction n generalizing a s with
  | zero => cases hn
  | succ n ih =>
    cases h with
    | stop hw => exact putsLoop_zero_word hw
    | char hw hrest =>
      have hless := roundsLeft_memRead_lt hw
      exact (putsLoop_char hw).trans (ih hrest (hless.trans_le (Nat.le_of_lt_succ hn)))

/-- PUTS steps exactly to the states that the loop of R154 ends in. -/
theorem exec_puts_iff {s t : State} : exec .puts s = .next t ↔ PutsEnds (s.reg 0) s t :=
  stringOutcome_eq_next.trans ⟨putsEnds_of_putsLoop, fun h =>
    putsLoop_of_putsEnds h (roundsLeft_lt_stringFuel _ s)⟩

/-- PUTSP steps exactly to the states that the loop of R156 ends in. -/
theorem exec_putsp_iff {s t : State} : exec .putsp s = .next t ↔ PutspEnds (s.reg 0) s t :=
  (putspResult.2 s t).1

/-- Settles O43: the fuel exceeds the rounds left, so the loop with fuel and the loop of R154 end in
the same states; the frame is `execPuts_frame`. -/
theorem putsResult : Obligations.PutsResult := by
  unfold Obligations.PutsResult
  refine fun s t => ⟨exec_puts_iff, fun h => ?_⟩
  have hframe : StringFrame s t := execPuts_frame h
  exact ⟨hframe.routineFrame, hframe.run, hframe.termRestores⟩

/-! ### No string goes on for ever (log 6) -/

/-- The loop of PUTS ends: a round that goes on leaves fewer rounds. -/
theorem exists_putsEnds (a : Word) (s : State) : ∃ t, PutsEnds a s t := by
  by_cases hw : (memRead a s).1 = 0x0000#16
  · exact ⟨_, .stop hw⟩
  · obtain ⟨t, ht⟩ :=
      exists_putsEnds (a + 1#16) (termWrite (loByte (memRead a s).1) (memRead a s).2)
    exact ⟨t, .char hw ht⟩
termination_by roundsLeft a s.termIn
decreasing_by exact roundsLeft_memRead_lt hw

/-- The loop of PUTSP ends, for the same reason. -/
theorem exists_putspEnds (a : Word) (s : State) : ∃ t, PutspEnds a s t := by
  by_cases hlo : loByte (memRead a s).1 = 0x00#8
  · exact ⟨_, .stopLow hlo⟩
  · by_cases hhi : hiByte (memRead a s).1 = 0x00#8
    · exact ⟨_, .stopHigh hlo hhi⟩
    · obtain ⟨t, ht⟩ := exists_putspEnds (a + 1#16)
        (termWrite (hiByte (memRead a s).1) (termWrite (loByte (memRead a s).1) (memRead a s).2))
      exact ⟨t, .chars hlo hhi ht⟩
termination_by roundsLeft a s.termIn
decreasing_by exact roundsLeft_memRead_lt (ne_zero_of_loByte_ne_zero hlo)

/-- Settles O47: both loops end from every address, and the routines step to where they end. -/
theorem stringRoutinesAlwaysComplete : Obligations.StringRoutinesAlwaysComplete := by
  unfold Obligations.StringRoutinesAlwaysComplete
  intro s
  obtain ⟨t, ht⟩ := exists_putsEnds (s.reg 0) s
  obtain ⟨u, hu⟩ := exists_putspEnds (s.reg 0) s
  exact ⟨⟨t, exec_puts_iff.mpr ht, ht⟩, ⟨u, exec_putsp_iff.mpr hu, hu⟩⟩

/-! ### Strings in plain memory -/

/-- The address after `a`, and `k` further. -/
theorem next_address (a : Word) (k : Nat) :
    a + 1#16 + BitVec.ofNat 16 k = a + BitVec.ofNat 16 (k + 1) := by
  rw [BitVec.add_assoc, ← BitVec.ofNat_add, Nat.add_comm]

/-- The cells from the address `a` on read as `ws`, each without an effect on the state. -/
def ReadsAs (a : Word) (ws : List Word) (s : State) : Prop :=
  ∀ (k : Nat) (h : k < ws.length), memRead (a + BitVec.ofNat 16 k) s = (ws[k], s)

/-- Writing to the terminal and reading do not disturb each other. -/
theorem memRead_termWrite (a : Word) (c : Byte) (s : State) :
    memRead a (termWrite c s) = ((memRead a s).1, termWrite c (memRead a s).2) := by
  rcases memRead_cases a s with ⟨rfl, h⟩ | ⟨rfl, h⟩ | ⟨hsr, hdr, h⟩ <;> rw [h]
  · exact memRead_kbsr _
  · rw [memRead_kbdr]
    cases hin : s.termIn with
    | nil =>
      have hin' : (termWrite c s).termIn = [] := hin
      rw [readKbdr, readKbdr, takeKey_nil hin, takeKey_nil hin']
      rfl
    | cons k rest =>
      have hin' : (termWrite c s).termIn = k :: rest := hin
      rw [readKbdr, readKbdr, takeKey_cons hin, takeKey_cons hin']
      rfl
  · exact memRead_plain _ hsr hdr

section ReadsAs

variable {a w : Word} {ws : List Word} {s : State}

theorem ReadsAs.head (h : ReadsAs a (w :: ws) s) : memRead a s = (w, s) := by
  simpa using h 0 (Nat.zero_lt_succ _)

theorem ReadsAs.tail (h : ReadsAs a (w :: ws) s) : ReadsAs (a + 1#16) ws s := by
  intro k hk
  rw [next_address]
  exact h (k + 1) (Nat.succ_lt_succ hk)

theorem ReadsAs.termWrite (h : ReadsAs a ws s) (c : Byte) :
    ReadsAs a ws (Machine.termWrite c s) := by
  intro k hk
  rw [memRead_termWrite, h k hk]

/-- Cells away from the keyboard addresses that hold `ws`, then `last`. -/
theorem readsAs_of_plain {last : Word}
    (hcells : ∀ (k : Nat) (h : k < ws.length), s.mem.read (a + BitVec.ofNat 16 k) = ws[k])
    (hplain : ∀ k ≤ ws.length, a + BitVec.ofNat 16 k ≠ 0xFE00#16 ∧ a + BitVec.ofNat 16 k ≠ 0xFE02#16)
    (hlast : s.mem.read (a + BitVec.ofNat 16 ws.length) = last) : ReadsAs a (ws ++ [last]) s := by
  intro k hk
  rw [List.length_append, List.length_singleton] at hk
  obtain ⟨hsr, hdr⟩ := hplain k (Nat.le_of_lt_succ hk)
  rw [memRead_plain s hsr hdr]
  rcases Nat.lt_succ_iff_lt_or_eq.mp hk with hlt | rfl
  · rw [hcells k hlt, List.getElem_append_left hlt]
  · rw [hlast, List.getElem_concat_length rfl]

end ReadsAs

/-- PUTS writes the low byte of each cell up to the zero cell. -/
theorem putsEnds_of_readsAs {cells : List Word} {a : Word} {s : State}
    (h : ReadsAs a (cells ++ [0x0000#16]) s) (hne : ∀ w ∈ cells, w ≠ 0x0000#16) :
    PutsEnds a s { s with termOut := s.termOut ++ cells.map loByte } := by
  induction cells generalizing a s with
  | nil =>
    have hstop := PutsEnds.stop (congrArg Prod.fst h.head)
    rw [h.head] at hstop
    simpa using hstop
  | cons w ws ih =>
    obtain ⟨hw, hws⟩ := List.forall_mem_cons.mp hne
    refine .char (by rwa [h.head]) ?_
    rw [h.head]
    have hrest := ih (h.tail.termWrite (loByte w)) hws
    rwa [termWrite_termOut, List.append_assoc] at hrest

/-- PUTSP writes both bytes of each full cell, and of the cell that ends the string the low byte
unless it is zero. -/
theorem putspEnds_of_readsAs {cells : List Word} {last a : Word} {s : State}
    (h : ReadsAs a (cells ++ [last]) s)
    (hfull : ∀ w ∈ cells, loByte w ≠ 0x00#8 ∧ hiByte w ≠ 0x00#8)
    (hlast : loByte last = 0x00#8 ∨ hiByte last = 0x00#8) :
    PutspEnds a s { s with
      termOut := s.termOut ++ cells.flatMap (fun w => [loByte w, hiByte w]) ++
        if loByte last = 0x00#8 then [] else [loByte last] } := by
  induction cells generalizing a s with
  | nil =>
    have hread : memRead a s = (last, s) := h.head
    by_cases hlo : loByte last = 0x00#8
    · have hstop := PutspEnds.stopLow (a := a) (s := s) (by rwa [hread])
      rw [hread] at hstop
      simpa [hlo] using hstop
    · have hstop := PutspEnds.stopHigh (a := a) (s := s) (by rwa [hread])
        (by rw [hread]; exact hlast.resolve_left hlo)
      rw [hread] at hstop
      simpa [hlo, termWrite] using hstop
  | cons w ws ih =>
    obtain ⟨⟨hlo, hhi⟩, hws⟩ := List.forall_mem_cons.mp hfull
    refine .chars (by rwa [h.head]) (by rwa [h.head]) ?_
    rw [h.head]
    have hrest := ih ((h.tail.termWrite (loByte w)).termWrite (hiByte w)) hws
    rw [termWrite_termOut, termWrite_termOut] at hrest
    rw [List.flatMap_cons]
    simpa using hrest

/-- Settles O48: the string reads as its cells and a zero, so the loop of R154 writes their low
bytes. -/
theorem putsWritesTheString : Obligations.PutsWritesTheString := by
  unfold Obligations.PutsWritesTheString
  intro s cells hcells hplain hend
  have hreads := readsAs_of_plain (fun k hk => (hcells k hk).1) hplain hend
  exact exec_puts_iff.mpr (putsEnds_of_readsAs hreads
    (List.forall_mem_iff_forall_getElem.mpr fun k hk => (hcells k hk).2))

/-- Settles O49: the string reads as its full cells and the one that ends it, so the loop of R156
writes their bytes. -/
theorem putspWritesTheString : Obligations.PutspWritesTheString := by
  unfold Obligations.PutspWritesTheString
  intro s cells last hcells hplain hread hlast
  have hreads := readsAs_of_plain (fun k hk => (hcells k hk).1) hplain hread
  exact exec_putsp_iff.mpr (putspEnds_of_readsAs hreads
    (List.forall_mem_iff_forall_getElem.mpr fun k hk => (hcells k hk).2) hlast)

end Sys2Proof.Machine
end

section
/-! PROOFS. What one instruction can do, said once, and what follows for every step: the invariant,
the registers, `pc`, memory, the terminal and the fault record (spec/10_state.md, 20_memory.md,
60_exceptions.md). -/

namespace Sys2Proof.Machine

/-! ### The terminal in order -/

/-- Between `s` and `t` characters were taken from the head of `TermIn` only, the last of them is in
the latch, and bytes were appended to `TermOut` (R27, R30 to R32). -/
def InOrder (s t : State) : Prop :=
  ∃ taken written, s.termIn = taken ++ t.termIn ∧ t.termOut = s.termOut ++ written ∧
    t.kbData = taken.getLast?.getD s.kbData

theorem InOrder.of_same {s t : State} (hin : t.termIn = s.termIn) (hkb : t.kbData = s.kbData)
    (hout : t.termOut = s.termOut) : InOrder s t :=
  ⟨[], [], by simp [hin], by simp [hout], by simp [hkb]⟩

theorem InOrder.trans {s t u : State} (h : InOrder s t) (k : InOrder t u) : InOrder s u := by
  obtain ⟨taken, written, hin, hout, hkb⟩ := h
  obtain ⟨taken', written', hin', hout', hkb'⟩ := k
  refine ⟨taken ++ taken', written ++ written', by simp [hin, hin'], by simp [hout, hout'], ?_⟩
  rw [hkb', hkb, List.getLast?_append, Option.getD_or]

/-- What the terminal operations do: `TermIn`, the latch and `TermOut` change in order, and nothing
else does. -/
structure TerminalOnly (s t : State) : Prop where
  frame : StringFrame s t
  order : InOrder s t

section TerminalOnly

variable {s t u : State}

theorem TerminalOnly.refl (s : State) : TerminalOnly s s := ⟨.refl s, .of_same rfl rfl rfl⟩

theorem TerminalOnly.trans (h : TerminalOnly s t) (k : TerminalOnly t u) : TerminalOnly s u :=
  ⟨h.frame.trans k.frame, h.order.trans k.order⟩

theorem terminalOnly_termWriteAll (bs : List Byte) (s : State) :
    TerminalOnly s (termWriteAll bs s) :=
  ⟨⟨rfl, rfl, rfl, rfl, rfl, rfl, rfl⟩, [], bs, rfl, rfl, rfl⟩

theorem terminalOnly_termWrite (c : Byte) (s : State) : TerminalOnly s (termWrite c s) :=
  terminalOnly_termWriteAll [c] s

theorem terminalOnly_take {c : Byte} {rest : List Byte} (h : s.termIn = c :: rest) :
    TerminalOnly s { s with termIn := rest, kbData := c } :=
  ⟨⟨rfl, rfl, rfl, rfl, rfl, rfl, rfl⟩, [c], [], h, (List.append_nil _).symm, rfl⟩

theorem terminalOnly_memRead (a : Word) (s : State) : TerminalOnly s (memRead a s).2 := by
  rcases memRead_keyStep a s with h | ⟨c, rest, hin, h⟩ <;> rw [h]
  · exact .refl s
  · exact terminalOnly_take hin

theorem PutsEnds.terminalOnly {a : Word} (h : PutsEnds a s t) : TerminalOnly s t := by
  induction h with
  | stop _ => exact terminalOnly_memRead _ _
  | char _ _ ih => exact ((terminalOnly_memRead _ _).trans (terminalOnly_termWrite _ _)).trans ih

theorem PutspEnds.terminalOnly {a : Word} (h : PutspEnds a s t) : TerminalOnly s t := by
  induction h with
  | stopLow _ => exact terminalOnly_memRead _ _
  | stopHigh _ _ => exact (terminalOnly_memRead _ _).trans (terminalOnly_termWrite _ _)
  | chars _ _ _ ih =>
    exact (((terminalOnly_memRead _ _).trans (terminalOnly_termWrite _ _)).trans
      (terminalOnly_termWrite _ _)).trans ih

end TerminalOnly

/-! ### What an instruction can do -/

/-- The instructions that record a fault: RTI, RES and TRAP with an undefined vector. -/
def Faulting (i : Instr) : Prop :=
  i.opcode = .rti ∨ i.opcode = .res ∨
    i.opcode = .trap ∧ i ∉ [.getc, .out, .puts, .inChar, .putsp, .halt]

/-- The state an instruction can lead to, by what it ends in; the facts of the instruction that go
with each end are those of its destination, its store address and its row of R17. -/
inductive Effect (i : Instr) (s : State) : State → Prop where
  /-- The seven flag-setting opcodes, after their reads. -/
  | result {d : Reg} {v : Word} {u : State} : i.destination = some d → pcAfter i s.pc s = s.pc →
      TerminalOnly s u → Effect i s (writeResult d v u)
  /-- BR and JMP. -/
  | jump : Effect i s (s.setPc (pcAfter i s.pc s))
  /-- JSR and JSRR. -/
  | call : i.destination = some 7 → Effect i s ((linkR7 s).setPc (pcAfter i s.pc s))
  /-- ST, STI and STR, after the read of a pointer. -/
  | store {a v : Word} {u : State} : i.storeAddress s = some a → pcAfter i s.pc s = s.pc →
      TerminalOnly s u → Effect i s (memWrite a v u)
  /-- GETC and IN. -/
  | key {c : Byte} {u : State} : i.destination = some 0 → pcAfter i s.pc s = s.pc →
      TerminalOnly s u → Effect i s (keyToR0 c u)
  /-- OUT, PUTS and PUTSP. -/
  | terminal {t : State} : pcAfter i s.pc s = s.pc → TerminalOnly s t → Effect i s t
  /-- HALT. -/
  | halt : pcAfter i s.pc s = s.pc →
      Effect i s (clearRun (termRestore (termWriteAll Config.haltMessage s)))
  /-- RTI, RES and TRAP with an undefined vector. -/
  | fault {f : FaultRecord} : Faulting i → pcAfter i s.pc s = s.pc → Effect i s (raise f s)

/-- BR sets `pc` to its row of R17: a branch that is not taken leaves `pc` at the incremented pc. -/
theorem exec_br_eq_setPc (n z p : Bool) (off : BitVec 9) (s : State) :
    exec (.br n z p off) s = .next (s.setPc (pcAfter (.br n z p off) s.pc s)) := by
  have hrow : pcAfter (.br n z p off) s.pc s =
      if branchTaken n z p s.cond then s.pc + sext16 off else s.pc := rfl
  rw [exec_br, hrow]
  split <;> rfl

/-- JSRR reads its base after the link, so `JSRR R7` finds the incremented pc there (R134). -/
theorem linkR7_reg (b : Reg) (s : State) :
    (linkR7 s).reg b = if b = 7 then s.pc else s.reg b := by
  split
  · next hb => rw [hb, linkR7_reg_seven]
  · next hb => exact setReg_reg_ne s 7 b s.pc hb

theorem exec_jsrr_eq_setPc (b : Reg) (s : State) :
    exec (.jsrr b) s = .next ((linkR7 s).setPc (pcAfter (.jsrr b) s.pc s)) := by
  rw [exec_jsrr, linkR7_reg]
  rfl

/-- Every next state of an instruction is one of these. -/
theorem exec_effect {i : Instr} {s t : State} (h : exec i s = .next t) : Effect i s t := by
  cases i with
  | add | addImm | and | andImm | not | lea =>
    cases h
    exact .result rfl rfl (.refl s)
  | ld | ldr =>
    cases h
    exact .result rfl rfl (terminalOnly_memRead _ s)
  | ldi =>
    cases h
    exact .result rfl rfl ((terminalOnly_memRead _ s).trans (terminalOnly_memRead _ _))
  | br n z p off =>
    cases (exec_br_eq_setPc n z p off s).symm.trans h
    exact .jump
  | jmp b =>
    cases h
    exact .jump
  | jsr off =>
    cases h
    exact .call rfl
  | jsrr b =>
    cases (exec_jsrr_eq_setPc b s).symm.trans h
    exact .call rfl
  | st | str =>
    cases h
    exact .store rfl rfl (.refl s)
  | sti =>
    cases h
    exact .store rfl rfl (terminalOnly_memRead _ s)
  | getc =>
    obtain ⟨c, rest, hin, rfl⟩ := execGetc_next h
    exact .key rfl rfl (terminalOnly_take hin)
  | inChar =>
    obtain ⟨c, rest, hin, rfl⟩ := execIn_next h
    have htake := terminalOnly_take (s := termWriteAll Config.inPrompt s) hin
    exact .key rfl rfl (((terminalOnly_termWriteAll _ s).trans htake).trans (terminalOnly_termWrite c _))
  | out =>
    cases h
    exact .terminal rfl (terminalOnly_termWrite _ s)
  | puts => exact .terminal rfl (exec_puts_iff.mp h).terminalOnly
  | putsp => exact .terminal rfl (exec_putsp_iff.mp h).terminalOnly
  | halt =>
    cases h
    exact .halt rfl
  | rti =>
    cases h
    exact .fault (.inl rfl) rfl
  | res =>
    cases h
    exact .fault (.inr (.inl rfl)) rfl
  | trapUndef001F | trapUndef2627 | trapUndef282F | trapUndef303F | trapUndef407F
  | trapUndef80FF =>
    cases h
    exact .fault (.inr (.inr ⟨rfl, by simp⟩)) rfl

/-! ### What follows for one instruction -/

section Effect

variable {i : Instr} {s t : State}

theorem Effect.pc (h : Effect i s t) : t.pc = pcAfter i s.pc s := by
  cases h with
  | jump | call => rfl
  | halt hpc | fault _ hpc => exact hpc.symm
  | result _ hpc hu | store _ hpc hu | key _ hpc hu | terminal hpc hu =>
    exact hu.frame.pc.trans hpc.symm

theorem Effect.inOrder (h : Effect i s t) : InOrder s t := by
  cases h with
  | jump | call | fault => exact .of_same rfl rfl rfl
  | halt => exact (terminalOnly_termWriteAll _ s).order
  | result _ _ hu | store _ _ hu | key _ _ hu | terminal _ hu => exact hu.order

/-- Registers other than the destination are unchanged. -/
theorem Effect.reg (h : Effect i s t) {r : Reg} (hr : i.destination ≠ some r) :
    t.reg r = s.reg r := by
  have same {u : State} (hu : TerminalOnly s u) : u.reg r = s.reg r := by
    rw [State.reg, State.reg, hu.frame.x]
  cases h with
  | jump | halt | fault => rfl
  | terminal _ hu => exact same hu
  | store _ _ hu => exact (memWrite_reg _ _ _ r).trans (same hu)
  | result hd _ hu => exact (writeResult_reg_ne _ _ _ r fun e => hr (e ▸ hd)).trans (same hu)
  | call hd => exact setReg_reg_ne s 7 r s.pc fun e => hr (e ▸ hd)
  | key hd _ hu => exact (setReg_reg_ne _ 0 r _ fun e => hr (e ▸ hd)).trans (same hu)

/-- Memory is unchanged, or written once at the store address. -/
theorem Effect.mem (h : Effect i s t) :
    t.mem = s.mem ∨ ∃ a v, i.storeAddress s = some a ∧ t.mem = s.mem.write a v := by
  cases h with
  | jump | call | halt | fault => exact .inl rfl
  | result _ _ hu | key _ _ hu | terminal _ hu => exact .inl hu.frame.mem
  | store ha _ hu => exact .inr ⟨_, _, ha, congrArg (Memory.write · _ _) hu.frame.mem⟩

/-- A fault recorded anew is that of a faulting instruction, which leaves `run` alone (R183). -/
theorem Effect.fault_eq_or_faulting (h : Effect i s t) :
    t.fault = s.fault ∨ (Faulting i ∧ t.run = s.run) := by
  cases h with
  | jump | call | halt => exact .inl rfl
  | result _ _ hu | store _ _ hu | key _ _ hu | terminal _ hu => exact .inl hu.frame.fault
  | fault hi => exact .inr ⟨hi, rfl⟩

end Effect

/-- Settles O17: memory is written at the store address only. -/
theorem onlyStoresChangeMemory : Obligations.OnlyStoresChangeMemory := by
  unfold Obligations.OnlyStoresChangeMemory
  intro i s t h a ha
  rcases (exec_effect h).mem with hmem | ⟨b, v, hb, hmem⟩ <;> rw [hmem]
  exact read_write_ne s.mem b a v fun e => ha (e ▸ hb)

/-- Settles O55: in each end that writes a register, it is the destination. -/
theorem onlyTheDestinationIsWritten : Obligations.OnlyTheDestinationIsWritten := by
  unfold Obligations.OnlyTheDestinationIsWritten
  exact fun i s t h r hr => (exec_effect h).reg hr

/-! ### What follows for a step -/

/-- `pcAfter` looks at the registers and the flags only, which the fetch leaves alone. -/
theorem pcAfter_fetch (i : Instr) (npc : Word) (s : State) :
    pcAfter i npc (fetch s).2 = pcAfter i npc s := by
  cases i <;> simp [pcAfter]

/-- Settles O54: the instruction's `pc` after the fetch is the table's row for the state before
it. -/
theorem pcAfterEachInstruction : Obligations.PcAfterEachInstruction := by
  unfold Obligations.PcAfterEachInstruction
  intro s t h
  have hpc := (exec_effect (step_next h).2).pc
  rwa [pcAfter_fetch, fetch_word, fetch_state, setPc_pc] at hpc

theorem inOrder_fetch (s : State) : InOrder s (fetch s).2 := by
  rw [fetch_state]
  exact (terminalOnly_memRead s.pc s).order

/-- Settles O56: the fetch and the instruction each use the terminal in order. -/
theorem terminalIsUsedInOrder : Obligations.TerminalIsUsedInOrder := by
  unfold Obligations.TerminalIsUsedInOrder
  exact fun s t h => (inOrder_fetch s).trans (exec_effect (step_next h).2).inOrder

/-- One instruction keeps the canonical form of memory. -/
theorem exec_keeps_wf {i : Instr} {s t : State} (h : exec i s = .next t) (hs : s.mem.wf = true) :
    t.mem.wf = true := by
  rcases (exec_effect h).mem with hmem | ⟨a, v, -, hmem⟩ <;> rw [hmem]
  · exact hs
  · exact wf_write a v hs

/-- Settles O10: a RUNNING machine has no fault, so a fault that the step records is that of an
instruction which leaves `run` alone. -/
theorem stepKeepsInvariant : Obligations.StepKeepsInvariant := by
  unfold Obligations.StepKeepsInvariant
  intro s t hinv hstep
  obtain ⟨⟨hrun, hfault⟩, hexec⟩ := step_next hstep
  refine ⟨exec_keeps_wf hexec (by simpa using hinv.memory), fun hne => ?_⟩
  rcases (exec_effect hexec).fault_eq_or_faulting with hsame | ⟨-, hsame⟩
  · exact absurd (by simpa [hfault] using hsame) hne
  · simpa [hrun] using hsame

end Sys2Proof.Machine
end

section
/-! PROOFS. The traps, the blocked condition, and the instructions that record a fault
(spec/44_trap.md R150 to R159, 45_reserved.md, 60_exceptions.md R181 to R183). -/

namespace Sys2Proof.Machine

/-! ### GETC and IN -/

section Input

variable {s u : State} {c : Byte} {rest : List Byte}

theorem exec_getc_nil (h : s.termIn = []) : exec .getc s = .fault .blocked := by
  rw [exec, execGetc, takeKey_nil h]

theorem exec_getc_cons (h : s.termIn = c :: rest) :
    exec .getc s = .next (keyToR0 c { s with termIn := rest, kbData := c }) := by
  rw [exec, execGetc, takeKey_cons h]

theorem exec_inChar_nil (h : s.termIn = []) : exec .inChar s = .fault .blocked := by
  have hprompt : (termWriteAll Config.inPrompt s).termIn = [] := h
  rw [exec, execIn, takeKey_nil hprompt]

theorem exec_inChar_cons (h : s.termIn = c :: rest) :
    exec .inChar s = .next (keyToR0 c (termWrite c
      { termWriteAll Config.inPrompt s with termIn := rest, kbData := c })) := by
  have hprompt : (termWriteAll Config.inPrompt s).termIn = c :: rest := h
  rw [exec, execIn, takeKey_cons hprompt]

/-- The character enters R0 after terminal operations: the frame of GETC and IN. -/
theorem StringFrame.keyToR0 (h : StringFrame s u) (c : Byte) :
    RoutineFrame [0] s (keyToR0 c u) where
  regs r hr := by
    rw [Machine.keyToR0, setReg_reg_ne u 0 r _ (by simpa using hr), State.reg, State.reg, h.x]
  flag := h.cond
  pc := h.pc
  cells a _ := congrArg (Memory.read · a) h.mem
  fault := h.fault

@[simp] theorem keyToR0_reg_zero (c : Byte) (s : State) : (keyToR0 c s).reg 0 = c.setWidth 16 :=
  setReg_reg_self s 0 _

/-- With a character waiting GETC and IN complete: it goes to the latch and to R0. -/
theorem exec_input_cons {i : Instr} (hi : i = .getc ∨ i = .inChar) (h : s.termIn = c :: rest) :
    ∃ u, exec i s = .next (keyToR0 c u) ∧ u.termIn = rest ∧ u.kbData = c ∧ StringFrame s u := by
  rcases hi with rfl | rfl
  · exact ⟨_, exec_getc_cons h, rfl, rfl, (terminalOnly_take h).frame⟩
  · exact ⟨_, exec_inChar_cons h, rfl, rfl, rfl, rfl, rfl, rfl, rfl, rfl, rfl⟩

end Input

/-- Settles O41: the two cases of `takeKey`, with the frame of `StringFrame.keyToR0`. -/
theorem getcResult : Obligations.GetcResult := by
  unfold Obligations.GetcResult
  exact fun s => ⟨fun c rest h => ⟨_, exec_getc_cons h, keyToR0_reg_zero c _, rfl, rfl,
    (terminalOnly_take h).frame.keyToR0 c, rfl, rfl, rfl⟩, exec_getc_nil⟩

/-- Settles O44: as GETC, between the prompt and the echo. -/
theorem inResult : Obligations.InResult := by
  unfold Obligations.InResult
  refine fun s => ⟨fun c rest h => ⟨_, exec_inChar_cons h, rfl, keyToR0_reg_zero c _, rfl, rfl, ?_,
    rfl, rfl⟩, exec_inChar_nil⟩
  have hframe : StringFrame s
      (termWrite c { termWriteAll Config.inPrompt s with termIn := rest, kbData := c }) :=
    ⟨rfl, rfl, rfl, rfl, rfl, rfl, rfl⟩
  exact hframe.keyToR0 c

/-! ### The blocked condition -/

/-- An instruction completes, unless it is GETC or IN with no character waiting. -/
theorem exec_next_or_blocked (i : Instr) (s : State) :
    (∃ t, exec i s = .next t) ∨
      exec i s = .fault .blocked ∧ (i = .getc ∨ i = .inChar) ∧ s.termIn = [] := by
  cases i with
  | getc =>
    cases hin : s.termIn with
    | nil => exact .inr ⟨exec_getc_nil hin, .inl rfl, rfl⟩
    | cons c rest => exact .inl ⟨_, exec_getc_cons hin⟩
  | inChar =>
    cases hin : s.termIn with
    | nil => exact .inr ⟨exec_inChar_nil hin, .inr rfl, rfl⟩
    | cons c rest => exact .inl ⟨_, exec_inChar_cons hin⟩
  | puts =>
    obtain ⟨t, ht⟩ := exists_putsEnds (s.reg 0) s
    exact .inl ⟨t, exec_puts_iff.mpr ht⟩
  | putsp =>
    obtain ⟨t, ht⟩ := exists_putspEnds (s.reg 0) s
    exact .inl ⟨t, exec_putsp_iff.mpr ht⟩
  | br | add | addImm | ld | st | jsrr | jsr | and | andImm | ldr | str | rti | not | ldi | sti | jmp
  | res | lea | out | halt | trapUndef001F | trapUndef2627 | trapUndef282F | trapUndef303F
  | trapUndef407F | trapUndef80FF => exact .inl ⟨_, rfl⟩

theorem exec_blocked_iff {i : Instr} {s : State} :
    exec i s = .fault .blocked ↔ (i = .getc ∨ i = .inChar) ∧ s.termIn = [] := by
  constructor
  · intro h
    rcases exec_next_or_blocked i s with ⟨t, ht⟩ | ⟨-, hi⟩
    · cases ht.symm.trans h
    · exact hi
  · rintro ⟨rfl | rfl, hin⟩
    · exact exec_getc_nil hin
    · exact exec_inChar_nil hin

/-- The trap dispatch keeps the vector, whatever it keeps of ir[11:8]. -/
theorem vecField_encode_decodeTrap (h : BitVec 4) (v : BitVec 8) :
    vecField (encode (decodeTrap h v)) = v := by
  rcases vector_defined_or_not v with hv | hv
  · rcases hv with rfl | rfl | rfl | rfl | rfl | rfl <;> exact encodeT_vec _ _
  · rw [encode_decodeTrap h hv, encodeT_vec]

/-- The top four bits of a word that decodes to an instruction of a known opcode. -/
theorem opcode_bits_of_decode {w : Word} {o : Opcode} (h : (decode w).opcode = o) :
    w.extractLsb' 12 4 = opcodeBits o := by
  rw [← h, decode_opcode, opcodeBits_opcodeOf]
  rfl

/-- A TRAP instruction is that of its word's vector. -/
theorem vector_of_decode {w : Word} {i : Instr} (hi : decode w = i) (ho : i.opcode = .trap) :
    w.extractLsb' 12 4 = 0xF#4 ∧ w.extractLsb' 0 8 = vecField (encode i) := by
  subst hi
  have hop : w.extractLsb' 12 4 = 0xF#4 := opcode_bits_of_decode ho
  rw [decode_of_opcode_trap hop rfl, vecField_encode_decodeTrap]
  exact ⟨hop, rfl⟩

/-- The words of GETC and IN. -/
theorem decode_input_iff (w : Word) : (decode w = .getc ∨ decode w = .inChar) ↔
    w.extractLsb' 12 4 = 0xF#4 ∧ (w.extractLsb' 0 8 = 0x20#8 ∨ w.extractLsb' 0 8 = 0x23#8) := by
  constructor
  · rintro (hi | hi)
    · obtain ⟨hop, hvec⟩ := vector_of_decode hi rfl
      exact ⟨hop, .inl hvec⟩
    · obtain ⟨hop, hvec⟩ := vector_of_decode hi rfl
      exact ⟨hop, .inr hvec⟩
  · rintro ⟨hop, hvec | hvec⟩
    · exact .inl ((decode_of_opcode_trap hop hvec).trans (decodeTrap_getc _))
    · exact .inr ((decode_of_opcode_trap hop hvec).trans (decodeTrap_inChar _))

/-- The status word is no TRAP word. -/
theorem kbsrWord_opcode_ne (s : State) : (kbsrWord s).extractLsb' 12 4 ≠ 0xF#4 := by
  unfold kbsrWord
  split <;> decide

/-- The data word is no TRAP word: it is a character, zero-extended. -/
theorem readKbdr_opcode_ne (s : State) : (readKbdr s).1.extractLsb' 12 4 ≠ 0xF#4 := by
  have hbyte : ∀ c : Byte, (zext16 c).extractLsb' 12 4 ≠ 0xF#4 := by decide
  unfold readKbdr
  split <;> exact hbyte _

/-- The fetched word is GETC or IN with no character left exactly in the condition of R158: at the
keyboard addresses the fetch returns no TRAP word, elsewhere it is the cell and has no effect. -/
theorem fetch_blocked_iff (s : State) :
    ((decode (fetch s).1 = .getc ∨ decode (fetch s).1 = .inChar) ∧ (fetch s).2.termIn = []) ↔
      Blocked s := by
  rw [decode_input_iff, fetch_word, fetch_state, setPc_termIn]
  rcases memRead_cases s.pc s with ⟨hpc, hr⟩ | ⟨hpc, hr⟩ | ⟨hsr, hdr, hr⟩ <;> rw [hr]
  · exact iff_of_false (fun h => kbsrWord_opcode_ne s h.1.1) (fun h => h.1 hpc)
  · exact iff_of_false (fun h => readKbdr_opcode_ne s h.1.1) (fun h => h.2.1 hpc)
  · simp only [Blocked, and_assoc, ne_eq, hsr, hdr, not_false_eq_true, true_and]

/-- A machine that is not RUNNING stops as such. -/
theorem step_of_not_running {s : State} (h : ¬ Running s) :
    step s = .fault .faulted ∨ step s = .fault .halted := by
  unfold step
  split
  · exact .inl rfl
  · next hf =>
    have hfault : s.fault = none := by simpa using hf
    exact .inr (if_neg fun hrun => h ⟨hrun, hfault⟩)

theorem step_blocked_iff {s : State} : step s = .fault .blocked ↔ Running s ∧ Blocked s := by
  by_cases hrun : Running s
  · rw [step_of_running hrun, exec_blocked_iff, fetch_blocked_iff]
    exact (and_iff_right hrun).symm
  · refine iff_of_false (fun h => ?_) fun h => hrun h.1
    rcases step_of_not_running hrun with hs | hs <;> cases hs.symm.trans h

/-- Settles O7: the step is blocked when what it fetches is, by `fetch_blocked_iff`. -/
theorem blockedExactlyWhenInputTrapLacksCharacter :
    Obligations.BlockedExactlyWhenInputTrapLacksCharacter := by
  unfold Obligations.BlockedExactlyWhenInputTrapLacksCharacter
  exact fun s => step_blocked_iff

/-- Settles O6: a RUNNING machine executes what it fetches, which completes or is blocked. -/
theorem stepEnabledExactlyWhenRunningAndNotBlocked :
    Obligations.StepEnabledExactlyWhenRunningAndNotBlocked := by
  unfold Obligations.StepEnabledExactlyWhenRunningAndNotBlocked
  intro s
  constructor
  · rintro ⟨t, ht⟩
    obtain ⟨hrun, -⟩ := step_next ht
    refine ⟨hrun, fun hblocked => ?_⟩
    cases (step_blocked_iff.mpr ⟨hrun, hblocked⟩).symm.trans ht
  · rintro ⟨hrun, hfree⟩
    rw [step_of_running hrun]
    rcases exec_next_or_blocked (decode (fetch s).1) (fetch s).2 with hnext | ⟨-, hinput⟩
    · exact hnext
    · exact absurd ((fetch_blocked_iff s).mp hinput) hfree

/-- Settles O8: the fetch at a plain address leaves the appended character to GETC or IN. -/
theorem appendedCharacterUnblocks : Obligations.AppendedCharacterUnblocks := by
  unfold Obligations.AppendedCharacterUnblocks
  intro s c hrun hblocked
  obtain ⟨hsr, hdr, hop, hvec, hin⟩ := hblocked
  have hkeys : ((s.appendKey c).setPc (s.pc + 1#16)).termIn = [c] := by simp [hin]
  obtain ⟨u, hexec, hrest, hkb, hframe⟩ :=
    exec_input_cons ((decode_input_iff (s.mem.read s.pc)).mpr ⟨hop, hvec⟩) hkeys
  have hread : memRead s.pc (s.appendKey c) = (s.mem.read s.pc, s.appendKey c) :=
    memRead_plain (s.appendKey c) hsr hdr
  have hstep : step (s.appendKey c) = .next (keyToR0 c u) := by
    rw [step_of_running (s := s.appendKey c) hrun, fetch_word, fetch_state, appendKey_pc, hread]
    exact hexec
  obtain ⟨hregs, hflag, hpc, hcells, hfault⟩ := hframe.keyToR0 c
  exact ⟨_, hstep, keyToR0_reg_zero c u, hkb, hrest, hpc, hflag, hregs, hcells,
    ⟨hframe.run, hfault⟩, hframe.termRestores⟩

/-! ### TRAP leaves the flags, R7, `pc` and memory alone -/

/-- No TRAP instruction has the flags, R7, `pc` or memory among what it writes. -/
theorem trap_writes_nothing_shared {i : Instr} (h : i.opcode = .trap) (npc : Word) (s : State) :
    i.flagDestination = none ∧ i.destination ≠ some 7 ∧ pcAfter i npc s = npc ∧
      i.storeAddress s = none := by
  cases i with
  | getc | out | puts | inChar | putsp | halt | trapUndef001F | trapUndef2627 | trapUndef282F
  | trapUndef303F | trapUndef407F | trapUndef80FF => exact ⟨rfl, by simp [Instr.destination], rfl, rfl⟩
  | br | add | addImm | ld | st | jsrr | jsr | and | andImm | ldr | str | rti | not | ldi | sti | jmp
  | res | lea => cases h

theorem exec_trap_frame {i : Instr} {s t : State} (hi : i.opcode = .trap)
    (h : exec i s = .next t) :
    t.cond = s.cond ∧ t.reg 7 = s.reg 7 ∧ t.pc = s.pc ∧ CellsBut [] s t := by
  obtain ⟨hflag, hdest, hpc, hstore⟩ := trap_writes_nothing_shared hi s.pc s
  have heff := exec_effect h
  refine ⟨(exec_keeps_cond_and_run hflag h).1, heff.reg hdest, heff.pc.trans hpc, fun a _ => ?_⟩
  exact onlyStoresChangeMemory i s t h a (by simp [hstore])

/-- Settles O40: the rows of the trap dispatch, and `exec_trap_frame` for every vector. -/
theorem trapDispatch : Obligations.TrapDispatch := by
  unfold Obligations.TrapDispatch
  intro w hop
  refine ⟨decode_of_opcode_trap hop, decode_of_opcode_trap hop, decode_of_opcode_trap hop,
    decode_of_opcode_trap hop, decode_of_opcode_trap hop, decode_of_opcode_trap hop,
    fun s t h => exec_trap_frame ?_ h⟩
  rw [decode_of_opcode_trap hop rfl, decodeTrap_opcode]

/-! ### HALT -/

theorem exec_halt (s : State) :
    exec .halt s = .next (clearRun (termRestore (termWriteAll Config.haltMessage s))) := rfl

theorem halt_frame (s : State) :
    RoutineFrame [] s (clearRun (termRestore (termWriteAll Config.haltMessage s))) :=
  ⟨fun _ _ => rfl, rfl, rfl, fun _ _ => rfl, rfl⟩

/-- Settles O46: a halted machine is not RUNNING, and `exec_run_of_ne_halt` covers the other
instructions. -/
theorem haltResult : Obligations.HaltResult := by
  unfold Obligations.HaltResult
  refine ⟨fun w hop => decode_of_opcode_trap hop,
    fun s => ⟨_, exec_halt s, rfl, rfl, rfl, halt_frame s, ⟨rfl, rfl⟩, fun u hu => ?_⟩,
    fun i s t h hrun hhalted => ?_⟩
  · obtain ⟨⟨hrun, -⟩, -⟩ := step_next hu
    cases hrun
  · by_contra hi
    rw [exec_run_of_ne_halt hi h, hrun] at hhalted
    cases hhalted

/-! ### The instructions that record a fault -/

/-- A word is its opcode's bits above ir[11:0]. -/
theorem opcode_append_low {w : Word} {b : BitVec 4} (hop : w.extractLsb' 12 4 = b) :
    b ++ w.extractLsb' 0 12 = w := by
  rw [← hop]
  exact append_extract (m := 4) (n := 12) w

theorem exec_rti (low : BitVec 12) (s : State) : exec (.rti low) s =
    .next (raise (.illegalOpcode (s.pc - 1#16) (0x8#4 ++ low)) s) := rfl
theorem exec_res (low : BitVec 12) (s : State) : exec (.res low) s =
    .next (raise (.illegalOpcode (s.pc - 1#16) (0xD#4 ++ low)) s) := rfl

/-- The words of RTI and RES record themselves. -/
theorem exec_illegal_word {w : Word} (hop : w.extractLsb' 12 4 = 0x8#4 ∨ w.extractLsb' 12 4 = 0xD#4)
    (s : State) : exec (decode w) s = .next (raise (.illegalOpcode (s.pc - 1#16) w) s) := by
  rcases hop with hop | hop
  · rw [decode_of_opcode_rti hop, exec_rti, lowField, opcode_append_low hop]
  · rw [decode_of_opcode_res hop, exec_res, lowField, opcode_append_low hop]

/-- Every constructor of the six rows of undefined vectors records its word. -/
theorem exec_trapUndef {h : BitVec 4} {v : BitVec 8} {i : Instr}
    (hi : i ∈ [.trapUndef001F h v, .trapUndef2627 h v, .trapUndef282F h v, .trapUndef303F h v,
      .trapUndef407F h v, .trapUndef80FF h v]) (s : State) :
    exec i s = .next (raise (.undefinedTrapVector (s.pc - 1#16) (encodeT h v)) s) := by
  simp only [List.mem_cons, List.not_mem_nil, or_false] at hi
  rcases hi with rfl | rfl | rfl | rfl | rfl | rfl <;> rfl

theorem decodeTrap_undefined_mem (h : BitVec 4) {v : BitVec 8} (hv : v < 0x20#8 ∨ 0x25#8 < v) :
    decodeTrap h v ∈ [.trapUndef001F h v, .trapUndef2627 h v, .trapUndef282F h v,
      .trapUndef303F h v, .trapUndef407F h v, .trapUndef80FF h v] := by
  rcases decodeTrap_undefined h hv with
    ⟨-, e⟩ | ⟨-, -, e⟩ | ⟨-, -, e⟩ | ⟨-, -, e⟩ | ⟨-, -, e⟩ | ⟨-, e⟩ <;> rw [e] <;> simp

/-- The words of TRAP with an undefined vector record themselves. -/
theorem exec_undefined_vector_word {w : Word} (hop : w.extractLsb' 12 4 = 0xF#4)
    (hv : w.extractLsb' 0 8 < 0x20#8 ∨ 0x25#8 < w.extractLsb' 0 8) (s : State) :
    exec (decode w) s = .next (raise (.undefinedTrapVector (s.pc - 1#16) w) s) := by
  have hdec : decode w = decodeTrap (highField w) (vecField w) := decode_of_opcode_trap hop rfl
  rw [hdec, exec_trapUndef (decodeTrap_undefined_mem (v := vecField w) _ hv) s, encodeT_fields hop]

/-- Settles O50: the words by what they decode to, the constructors one by one. -/
theorem undefinedVectorRaises : Obligations.UndefinedVectorRaises := by
  unfold Obligations.UndefinedVectorRaises
  exact ⟨fun w s hop hv => exec_undefined_vector_word hop hv s, fun h v i s hi => exec_trapUndef hi s⟩

/-- Settles O51: the words by what they decode to, then the two constructors. -/
theorem undefinedOpcodeRaises : Obligations.UndefinedOpcodeRaises := by
  unfold Obligations.UndefinedOpcodeRaises
  exact ⟨fun w s hop => exec_illegal_word hop s, fun low s => ⟨exec_rti low s, exec_res low s⟩⟩

/-- The words whose instruction records a fault. -/
theorem word_of_faulting {w : Word} (h : Faulting (decode w)) :
    (w.extractLsb' 12 4 = 0x8#4 ∨ w.extractLsb' 12 4 = 0xD#4) ∨
      w.extractLsb' 12 4 = 0xF#4 ∧ (w.extractLsb' 0 8 < 0x20#8 ∨ 0x25#8 < w.extractLsb' 0 8) := by
  rcases h with ho | ho | ⟨ho, hnot⟩
  · exact .inl (.inl (opcode_bits_of_decode ho))
  · exact .inl (.inr (opcode_bits_of_decode ho))
  · have hop : w.extractLsb' 12 4 = 0xF#4 := opcode_bits_of_decode ho
    refine .inr ⟨hop, (vector_defined_or_not _).resolve_left fun hv => hnot ?_⟩
    rcases hv with hv | hv | hv | hv | hv | hv <;> rw [decode_of_opcode_trap hop hv] <;> simp

/-- Settles O52: the machine was RUNNING, so the record is new and its instruction is a faulting
one, which only records the address fetched from and the word. -/
theorem faultRecordIsPrecise : Obligations.FaultRecordIsPrecise := by
  unfold Obligations.FaultRecordIsPrecise
  intro s t u w hstep hfault hread
  obtain ⟨⟨-, hnone⟩, hexec⟩ := step_next hstep
  rw [fetch_word, fetch_state, hread] at hexec
  have hu : u.fault = none := by
    rw [← hnone, ← memRead_fault s.pc s, hread]
  rcases (exec_effect hexec).fault_eq_or_faulting with hsame | ⟨hi, -⟩
  · exact absurd (hsame.trans hu) hfault
  · have haddr : s.pc + 1#16 - 1#16 = s.pc := BitVec.add_sub_cancel _ _
    rcases word_of_faulting hi with hop | ⟨hop, hv⟩
    · cases (exec_illegal_word hop _).symm.trans hexec
      rw [setPc_pc, haddr]
      exact .inl ⟨hop, rfl⟩
    · cases (exec_undefined_vector_word hop hv _).symm.trans hexec
      rw [setPc_pc, haddr]
      exact .inr ⟨hop, hv, rfl⟩

end Sys2Proof.Machine
end

section
/-! PROOFS. What is stored at the two keyboard addresses is never read back (spec/20_memory.md R47,
decisions D9 and D10): two machines that differ only there step together. -/

namespace Sys2Proof.Machine

/-! ### Two states that differ at most in the keyboard cells -/

section Agree

variable {s u : State}

/-- They are one state with two memories. -/
theorem AgreeOffKeyboard.eq_withMem (h : AgreeOffKeyboard s u) : u = { s with mem := u.mem } := by
  obtain ⟨hx, hpc, hcond, hrun, hfault, hkb, hin, hout, hrestores, -⟩ := h
  cases u
  cases hx
  cases hpc
  cases hcond
  cases hrun
  cases hfault
  cases hkb
  cases hin
  cases hout
  cases hrestores
  rfl

theorem AgreeOffKeyboard.reg (h : AgreeOffKeyboard s u) (r : Reg) : u.reg r = s.reg r := by
  rw [State.reg, State.reg, h.x]

theorem agree_withMem {m : Memory}
    (h : ∀ a ∉ [Config.kbsrAddr, Config.kbdrAddr], m.read a = s.mem.read a) :
    AgreeOffKeyboard s { s with mem := m } :=
  ⟨rfl, rfl, rfl, rfl, rfl, rfl, rfl, rfl, rfl, h⟩

/-- An operation that neither reads nor writes memory. -/
def MemoryBlind (f : State → State) : Prop :=
  ∀ (s : State) (m : Memory), f { s with mem := m } = { f s with mem := m }

theorem MemoryBlind.agree {f : State → State} (hf : MemoryBlind f) (h : AgreeOffKeyboard s u) :
    AgreeOffKeyboard (f s) (f u) := by
  have hmem : (f s).mem = s.mem := (congrArg State.mem (hf s s.mem) :)
  rw [h.eq_withMem, hf s u.mem]
  refine agree_withMem fun a ha => ?_
  rw [hmem]
  exact h.cells a ha

/-- The same write on both sides, at a keyboard address too. -/
theorem AgreeOffKeyboard.memWrite (h : AgreeOffKeyboard s u) (a v : Word) :
    AgreeOffKeyboard (memWrite a v s) (memWrite a v u) := by
  refine { h with cells := fun b hb => ?_ }
  rw [memWrite_mem, memWrite_mem, read_write, read_write, h.cells b hb]

/-- A read returns the same word: at the keyboard addresses it does not look at the cell. -/
theorem AgreeOffKeyboard.memRead (h : AgreeOffKeyboard s u) (a : Word) :
    (memRead a u).1 = (memRead a s).1 ∧
      AgreeOffKeyboard (Machine.memRead a s).2 (Machine.memRead a u).2 := by
  by_cases hsr : a = Config.kbsrAddr
  · rw [hsr, memRead_kbsr, memRead_kbsr, kbsrWord, kbsrWord, termAvail, termAvail, h.termIn]
    exact ⟨rfl, h⟩
  by_cases hdr : a = Config.kbdrAddr
  · rw [hdr, memRead_kbdr, memRead_kbdr, readKbdr, readKbdr]
    cases hin : s.termIn with
    | nil =>
      rw [takeKey_nil hin, takeKey_nil (h.termIn.trans hin)]
      exact ⟨congrArg zext16 h.kbData, h⟩
    | cons c rest =>
      rw [takeKey_cons hin, takeKey_cons (h.termIn.trans hin)]
      exact ⟨rfl, MemoryBlind.agree (f := fun s => { s with termIn := rest, kbData := c })
        (fun _ _ => rfl) h⟩
  rw [memRead_plain s hsr hdr, memRead_plain u hsr hdr]
  exact ⟨h.cells a (by simp [hsr, hdr]), h⟩

theorem AgreeOffKeyboard.loadFrom (h : AgreeOffKeyboard s u) (d : Reg) (ea : Word) :
    AgreeOffKeyboard (loadFrom d ea s) (loadFrom d ea u) := by
  obtain ⟨hword, hstate⟩ := h.memRead ea
  rw [Machine.loadFrom, Machine.loadFrom, hword]
  exact MemoryBlind.agree (fun _ _ => rfl) hstate

theorem AgreeOffKeyboard.fetch (h : AgreeOffKeyboard s u) :
    (fetch u).1 = (fetch s).1 ∧ AgreeOffKeyboard (Machine.fetch s).2 (Machine.fetch u).2 := by
  obtain ⟨hword, hstate⟩ := h.memRead s.pc
  rw [fetch_word, fetch_word, fetch_state, fetch_state, h.pc]
  exact ⟨hword, MemoryBlind.agree (f := State.setPc (s.pc + 1#16)) (fun _ _ => rfl) hstate⟩

/-! ### The string routines -/

theorem PutsEnds.agree {a : Word} {t : State} (ht : PutsEnds a s t) (h : AgreeOffKeyboard s u) :
    ∃ v, PutsEnds a u v ∧ AgreeOffKeyboard t v := by
  induction ht generalizing u with
  | @stop a s hw =>
    obtain ⟨hword, hstate⟩ := h.memRead a
    exact ⟨_, .stop (hword.trans hw), hstate⟩
  | @char a s t hw _ ih =>
    obtain ⟨hword, hstate⟩ := h.memRead a
    have hwrite := MemoryBlind.agree (f := termWrite (loByte (memRead a s).1)) (fun _ _ => rfl) hstate
    obtain ⟨v, hv, hagree⟩ := ih hwrite
    exact ⟨v, .char (by rwa [hword]) (by rwa [hword]), hagree⟩

theorem PutspEnds.agree {a : Word} {t : State} (ht : PutspEnds a s t) (h : AgreeOffKeyboard s u) :
    ∃ v, PutspEnds a u v ∧ AgreeOffKeyboard t v := by
  induction ht generalizing u with
  | @stopLow a s hlo =>
    obtain ⟨hword, hstate⟩ := h.memRead a
    exact ⟨_, .stopLow (by rwa [hword]), hstate⟩
  | @stopHigh a s hlo hhi =>
    obtain ⟨hword, hstate⟩ := h.memRead a
    refine ⟨_, .stopHigh (by rwa [hword]) (by rwa [hword]), ?_⟩
    rw [hword]
    exact MemoryBlind.agree (fun _ _ => rfl) hstate
  | @chars a s t hlo hhi _ ih =>
    obtain ⟨hword, hstate⟩ := h.memRead a
    have hwrite := MemoryBlind.agree
      (f := fun s' => termWrite (hiByte (memRead a s).1) (termWrite (loByte (memRead a s).1) s'))
      (fun _ _ => rfl) hstate
    obtain ⟨v, hv, hagree⟩ := ih hwrite
    exact ⟨v, .chars (by rwa [hword]) (by rwa [hword]) (by rwa [hword]), hagree⟩

end Agree

/-! ### One instruction, and one step -/

/-- Two outcomes agree: next states that differ at most in the keyboard cells, or one reason to
stop. -/
inductive OutcomesAgree :
    Host.Outcome State Fault Refusal → Host.Outcome State Fault Refusal → Prop where
  | next {t v : State} : AgreeOffKeyboard t v → OutcomesAgree (.next t) (.next v)
  | fault (f : Fault) : OutcomesAgree (.fault f) (.fault f)

theorem OutcomesAgree.of_next {t : State} {o : Host.Outcome State Fault Refusal}
    (h : OutcomesAgree (.next t) o) : ∃ v, o = .next v ∧ AgreeOffKeyboard t v := by
  cases h with
  | next hagree => exact ⟨_, rfl, hagree⟩

theorem OutcomesAgree.of_fault {f : Fault} {o : Host.Outcome State Fault Refusal}
    (h : OutcomesAgree (.fault f) o) : o = .fault f := by
  cases h
  rfl

/-- An instruction that does not touch memory. -/
theorem agree_of_memoryBlind {i : Instr} {f : State → State} {s u : State}
    (hexec : ∀ s, exec i s = .next (f s)) (hf : MemoryBlind f) (h : AgreeOffKeyboard s u) :
    OutcomesAgree (exec i s) (exec i u) := by
  rw [hexec, hexec]
  exact .next (hf.agree h)

theorem exec_agree (i : Instr) {s u : State} (h : AgreeOffKeyboard s u) :
    OutcomesAgree (exec i s) (exec i u) := by
  cases i with
  | add | addImm | and | andImm | not | lea | jmp | jsr | jsrr | out | halt | rti | res
  | trapUndef001F | trapUndef2627 | trapUndef282F | trapUndef303F | trapUndef407F
  | trapUndef80FF => exact agree_of_memoryBlind (fun _ => rfl) (fun _ _ => rfl) h
  | br n z p off => exact agree_of_memoryBlind (exec_br_eq_setPc n z p off) (fun _ _ => rfl) h
  | ld d off =>
    rw [exec_ld, exec_ld, h.pc]
    exact .next (h.loadFrom d _)
  | ldr d b off =>
    rw [exec_ldr, exec_ldr, h.reg]
    exact .next (h.loadFrom d _)
  | ldi d off =>
    obtain ⟨hword, hstate⟩ := h.memRead (s.pc + sext16 off)
    rw [exec_ldi, exec_ldi, h.pc, hword]
    exact .next (hstate.loadFrom d _)
  | st r off =>
    rw [exec_st, exec_st, h.reg, h.pc]
    exact .next (h.memWrite _ _)
  | str r b off =>
    rw [exec_str, exec_str, h.reg, h.reg]
    exact .next (h.memWrite _ _)
  | sti r off =>
    obtain ⟨hword, hstate⟩ := h.memRead (s.pc + sext16 off)
    rw [exec_sti, exec_sti, h.reg, h.pc, hword]
    exact .next (hstate.memWrite _ _)
  | getc =>
    cases hin : s.termIn with
    | nil =>
      rw [exec_getc_nil hin, exec_getc_nil (h.termIn.trans hin)]
      exact .fault _
    | cons c rest =>
      rw [exec_getc_cons hin, exec_getc_cons (h.termIn.trans hin)]
      exact .next (MemoryBlind.agree
        (f := fun s => keyToR0 c { s with termIn := rest, kbData := c }) (fun _ _ => rfl) h)
  | inChar =>
    cases hin : s.termIn with
    | nil =>
      rw [exec_inChar_nil hin, exec_inChar_nil (h.termIn.trans hin)]
      exact .fault _
    | cons c rest =>
      rw [exec_inChar_cons hin, exec_inChar_cons (h.termIn.trans hin)]
      exact .next (MemoryBlind.agree (f := fun s => keyToR0 c (termWrite c
        { termWriteAll Config.inPrompt s with termIn := rest, kbData := c })) (fun _ _ => rfl) h)
  | puts =>
    obtain ⟨t, ht⟩ := exists_putsEnds (s.reg 0) s
    obtain ⟨v, hv, hagree⟩ := ht.agree h
    rw [exec_puts_iff.mpr ht, exec_puts_iff.mpr ((h.reg 0).symm ▸ hv)]
    exact .next hagree
  | putsp =>
    obtain ⟨t, ht⟩ := exists_putspEnds (s.reg 0) s
    obtain ⟨v, hv, hagree⟩ := ht.agree h
    rw [exec_putsp_iff.mpr ht, exec_putsp_iff.mpr ((h.reg 0).symm ▸ hv)]
    exact .next hagree

theorem step_agree {s u : State} (h : AgreeOffKeyboard s u) :
    OutcomesAgree (step s) (step u) := by
  obtain ⟨hword, hstate⟩ := h.fetch
  simp only [step, h.fault, h.run, hword]
  split
  · exact .fault _
  · split
    · exact exec_agree _ hstate
    · exact .fault _

/-- Settles O20: a simulation, instruction by instruction; only the reads look at memory, and at the
keyboard addresses not at the cell. -/
theorem keyboardCellsAreNeverReadBack : Obligations.KeyboardCellsAreNeverReadBack := by
  unfold Obligations.KeyboardCellsAreNeverReadBack
  intro s u h
  have hsteps := step_agree h
  exact ⟨fun t ht => (ht ▸ hsteps).of_next, fun f hf => (hf ▸ hsteps).of_fault⟩

end Sys2Proof.Machine
end

section
/-! PROOFS. Memory: the canonical form, a stored word that is fetched or loaded, `MemRead`, and the
state after reset (spec/20_memory.md, 10_state.md R35). -/

namespace Sys2Proof.Machine

/-! ### Canonical memories -/

theorem wfFrom_cons_iff {lo a : Nat} {v : Word} {m : Memory} :
    Memory.wfFrom lo ((a, v) :: m) = true ↔
      (lo ≤ a ∧ a < Config.memCells ∧ v ≠ Memory.unlisted) ∧ Memory.wfFrom (a + 1) m = true := by
  rw [Memory.wfFrom, Bool.and_eq_true, decide_eq_true_iff]

@[simp] theorem lookup_cons_self (a : Nat) (v : Word) (m : Memory) :
    Memory.lookup a ((a, v) :: m) = v := if_pos rfl

theorem lookup_cons_ne {a k : Nat} (h : a ≠ k) (v : Word) (m : Memory) :
    Memory.lookup k ((a, v) :: m) = Memory.lookup k m := if_neg h

/-- The first key of a canonical memory is a cell where a memory of larger keys differs. -/
theorem lookup_ne_of_first_key {lo a : Nat} {v : Word} {m n : Memory}
    (hm : Memory.wfFrom lo ((a, v) :: m) = true) (hn : Memory.wfFrom (a + 1) n = true) :
    Memory.lookup a ((a, v) :: m) ≠ Memory.lookup a n := by
  obtain ⟨⟨-, -, hv⟩, -⟩ := wfFrom_cons_iff.mp hm
  rwa [lookup_cons_self, lookup_of_wfFrom_lt hn (Nat.lt_succ_self a)]

/-- Canonical memories that read alike are one list: their first entries agree, since the smaller of
two first keys would be a cell where they differ. -/
theorem eq_of_lookup_eq {lo : Nat} {m n : Memory} (hm : Memory.wfFrom lo m = true)
    (hn : Memory.wfFrom lo n = true)
    (h : ∀ k < Config.memCells, Memory.lookup k m = Memory.lookup k n) : m = n := by
  induction m generalizing lo n with
  | nil =>
    cases n with
    | nil => rfl
    | cons e n =>
      obtain ⟨⟨-, hb, -⟩, -⟩ := wfFrom_cons_iff.mp hn
      exact absurd (h e.1 hb).symm (lookup_ne_of_first_key hn rfl)
  | cons e m ih =>
    obtain ⟨a, v⟩ := e
    obtain ⟨⟨-, ha, hv⟩, hm'⟩ := wfFrom_cons_iff.mp hm
    cases n with
    | nil => exact absurd (h a ha) (lookup_ne_of_first_key hm rfl)
    | cons e n =>
      obtain ⟨b, w⟩ := e
      obtain ⟨⟨-, hb, hw⟩, hn'⟩ := wfFrom_cons_iff.mp hn
      rcases Nat.lt_trichotomy a b with hlt | rfl | hlt
      · have hlarger : Memory.wfFrom (a + 1) ((b, w) :: n) = true :=
          wfFrom_cons_iff.mpr ⟨⟨hlt, hb, hw⟩, hn'⟩
        exact absurd (h a ha) (lookup_ne_of_first_key hm hlarger)
      · have hvw : v = w := by simpa using h a ha
        have hrest : ∀ k < Config.memCells, Memory.lookup k m = Memory.lookup k n := by
          intro k hk
          rcases Nat.lt_or_ge a k with hak | hka
          · have hne : a ≠ k := Nat.ne_of_lt hak
            simpa only [lookup_cons_ne hne] using h k hk
          · rw [lookup_of_wfFrom_lt hm' (Nat.lt_succ_of_le hka),
              lookup_of_wfFrom_lt hn' (Nat.lt_succ_of_le hka)]
        rw [hvw, ih hm' hn' hrest]
      · have hlarger : Memory.wfFrom (b + 1) ((a, v) :: m) = true :=
          wfFrom_cons_iff.mpr ⟨⟨hlt, ha, hv⟩, hm'⟩
        exact absurd (h b hb).symm (lookup_ne_of_first_key hn hlarger)

/-- Settles O16: an address is a key below the number of cells. -/
theorem canonicalMemoriesWithSameCellsAreEqual :
    Obligations.CanonicalMemoriesWithSameCellsAreEqual := by
  unfold Obligations.CanonicalMemoriesWithSameCellsAreEqual
  intro m n hm hn h
  refine eq_of_lookup_eq hm hn fun k hk => ?_
  have haddr : (BitVec.ofNat 16 k).toNat = k := (BitVec.toNat_ofNat k 16).trans (Nat.mod_eq_of_lt hk)
  simpa only [Memory.read, haddr] using h (BitVec.ofNat 16 k)

/-! ### `MemRead` -/

theorem kbsrWord_eq (s : State) :
    kbsrWord s = if s.termIn = [] then 0x0000#16 else 0x8000#16 := by
  rw [kbsrWord, termAvail]
  cases s.termIn <;> rfl

/-- Settles O14: the three cases of `MemRead`, the data word with and without a character. -/
theorem memReadDecodesKeyboardAddresses : Obligations.MemReadDecodesKeyboardAddresses := by
  unfold Obligations.MemReadDecodesKeyboardAddresses
  refine fun s => ⟨?_, fun c rest hin => ?_, fun hin => ?_, fun a hsr hdr => memRead_plain s hsr hdr⟩
  · rw [← kbsrWord_eq]
    exact memRead_kbsr s
  · refine (memRead_kbdr s).trans ?_
    rw [readKbdr, takeKey_cons hin]
    rfl
  · refine (memRead_kbdr s).trans ?_
    rw [readKbdr, takeKey_nil hin]
    rfl

/-! ### A stored word is fetched and loaded -/

/-- ST, STI and STR store their register at the store address, and do nothing else. -/
theorem stores_of_exec {i : Instr} {r : Reg} {a : Word} {s t : State}
    (hi : (∃ off, i = .st r off) ∨ (∃ off, i = .sti r off) ∨ (∃ b off, i = .str r b off))
    (h : exec i s = .next t) (ha : i.storeAddress s = some a) : Stores a (s.reg r) s t := by
  rcases hi with ⟨off, rfl⟩ | ⟨off, rfl⟩ | ⟨b, off, rfl⟩
  · cases (exec_st r off s).symm.trans h
    cases ha
    exact stores_memWrite _ _ s
  · cases (exec_sti r off s).symm.trans h
    cases ha
    exact (stores_memWrite _ _ _).of_keyStep (memRead_keyStep _ s)
  · cases (exec_str r b off s).symm.trans h
    cases ha
    exact stores_memWrite _ _ s

/-- Settles O18: the store leaves the machine RUNNING, and the fetch reads the stored cell. -/
theorem storedWordIsFetchedNext : Obligations.StoredWordIsFetchedNext := by
  unfold Obligations.StoredWordIsFetchedNext
  intro i r s t hi hrun h ha hsr hdr
  have hstores := stores_of_exec hi h ha
  obtain ⟨hsame_run, hsame_fault⟩ := hstores.control
  have hrun' : Running t := ⟨hsame_run.trans hrun.1, hsame_fault.trans hrun.2⟩
  rw [step_of_running hrun', fetch_word, fetch_state, memRead_plain t hsr hdr, hstores.cell]

/-- LD, LDI and LDR end in the load of their data address, after reads that leave memory alone. -/
theorem exec_eq_loadFrom {j : Instr} {d : Reg} {a : Word} {m : State}
    (ha : j.loadAddress m = some a) (hd : j.destination = some d) :
    ∃ w, exec j m = .next (loadFrom d a w) ∧ w.mem = m.mem := by
  cases j with
  | ld | ldr =>
    cases ha
    cases hd
    exact ⟨m, rfl, rfl⟩
  | ldi =>
    cases ha
    cases hd
    exact ⟨_, rfl, memRead_mem _ m⟩
  | br | add | addImm | st | jsrr | jsr | and | andImm | str | rti | not | sti | jmp | res | lea
  | getc | out | puts | inChar | putsp | halt | trapUndef001F | trapUndef2627 | trapUndef282F
  | trapUndef303F | trapUndef407F | trapUndef80FF => cases ha

/-- Settles O19: the load reads the stored cell in the memory that the store left. -/
theorem loadAfterStoreSeesStoredValue : Obligations.LoadAfterStoreSeesStoredValue := by
  unfold Obligations.LoadAfterStoreSeesStoredValue
  intro i j r d a s t m hi h ha hmem hload hd hsr hdr
  obtain ⟨w, hexec, hw⟩ := exec_eq_loadFrom hload hd
  refine ⟨_, hexec, ?_⟩
  calc (loadFrom d a w).reg d
    _ = (memRead a w).1 := (setsRegister_loadFrom d a w).result
    _ = t.mem.read a := by rw [memRead_plain w hsr hdr, hw, hmem]
    _ = s.reg r := (stores_of_exec hi h ha).cell

/-! ### The state after reset -/

/-- Settles O11: memory lists nothing, and `run` is 1. -/
theorem resetMeetsInvariant : Obligations.ResetMeetsInvariant := by
  unfold Obligations.ResetMeetsInvariant
  exact ⟨wf_nil, fun _ => rfl⟩

/-- Settles O13: each field is evaluated; every cell is an unlisted one. -/
theorem resetValues : Obligations.ResetValues := by
  unfold Obligations.ResetValues
  exact ⟨by decide, rfl, rfl, read_nil, rfl, rfl, rfl, rfl⟩

end Sys2Proof.Machine
end

section
/-! PROOFS. Loading images, and the runs from a loaded machine (spec/70_reset_and_hazards.md R203 to
R205, 10_state.md R24). -/

namespace Sys2Proof.Machine

/-! ### The words of an image -/

section LoadWords

variable {w : Word} {ws : List Word} {a b : Word}

theorem loadWords_only_memory (ws : List Word) (a : Word) (s : State) :
    ∃ m, loadWords ws a s = { s with mem := m } := by
  induction ws generalizing a s with
  | nil => exact ⟨s.mem, rfl⟩
  | cons w ws ih =>
    obtain ⟨m, hm⟩ := ih (a + 1#16) (memWrite a w s)
    exact ⟨m, hm⟩

/-- A cell outside the image is as before. -/
theorem loadWords_read_outside (s : State)
    (h : ∀ k < ws.length, b ≠ a + BitVec.ofNat 16 k) :
    (loadWords ws a s).mem.read b = s.mem.read b := by
  induction ws generalizing a s with
  | nil => rfl
  | cons w ws ih =>
    have hfirst : b ≠ a := by simpa using h 0 (Nat.zero_lt_succ _)
    have hrest : ∀ k < ws.length, b ≠ a + 1#16 + BitVec.ofNat 16 k := by
      intro k hk
      rw [next_address]
      exact h (k + 1) (Nat.succ_lt_succ hk)
    calc (loadWords ws (a + 1#16) (memWrite a w s)).mem.read b
      _ = (memWrite a w s).mem.read b := ih _ hrest
      _ = s.mem.read b := read_write_ne s.mem a b w hfirst

/-- A word that no later word wraps onto is read at its address. -/
theorem loadWords_read_word (s : State) {k : Nat} (hk : k < ws.length)
    (h : ∀ j, k < j → j < ws.length → a + BitVec.ofNat 16 j ≠ a + BitVec.ofNat 16 k) :
    (loadWords ws a s).mem.read (a + BitVec.ofNat 16 k) = ws[k] := by
  induction ws generalizing a s k with
  | nil => cases hk
  | cons w ws ih =>
    cases k with
    | zero =>
      have hzero : a + BitVec.ofNat 16 0 = a := BitVec.add_zero a
      have hlater : ∀ j < ws.length, a ≠ a + 1#16 + BitVec.ofNat 16 j := by
        intro j hj
        rw [next_address]
        have hne := h (j + 1) (Nat.zero_lt_succ j) (Nat.succ_lt_succ hj)
        rw [hzero] at hne
        exact hne.symm
      rw [hzero]
      exact (loadWords_read_outside (memWrite a w s) hlater).trans (read_write_self s.mem a w)
    | succ k =>
      rw [← next_address]
      refine ih (memWrite a w s) (Nat.lt_of_succ_lt_succ hk) fun j hkj hj => ?_
      rw [next_address, next_address]
      exact h (j + 1) (Nat.succ_lt_succ hkj) (Nat.succ_lt_succ hj)

end LoadWords

/-! ### The files -/

theorem loadFiles_cons_ok {f : List Byte} {img : Image} (hf : parseImage f = .ok img)
    (fs : List (List Byte)) (s : State) :
    loadFiles (f :: fs) s = loadFiles fs (loadImage img s) := by
  rw [loadFiles, hf]

theorem loadFiles_cons_error {f : List Byte} {e : LoadError} (hf : parseImage f = .error e)
    (fs : List (List Byte)) (s : State) : loadFiles (f :: fs) s = .error e := by
  rw [loadFiles, hf]

theorem boot_eq_loadFiles {files : List (List Byte)} (h : files ≠ []) :
    boot files = loadFiles files State.reset := by
  cases files with
  | nil => exact absurd rfl h
  | cons f fs => rfl

/-- Files that all parse are loaded one after another. -/
theorem loadFiles_of_parse {files : List (List Byte)} {imgs : List Image}
    (h : files.map parseImage = imgs.map .ok) (s : State) :
    loadFiles files s = .ok (imgs.foldl (fun t i => loadImage i t) s) := by
  induction files generalizing imgs s with
  | nil =>
    cases imgs with
    | nil => rfl
    | cons img imgs => cases h
  | cons f fs ih =>
    cases imgs with
    | nil => cases h
    | cons img imgs =>
      obtain ⟨hf, hfs⟩ := List.cons.inj h
      rw [loadFiles_cons_ok hf, ih hfs, List.foldl_cons]

/-- A file that does not parse stops the loading, at it or before it. -/
theorem loadFiles_error {files : List (List Byte)} {f : List Byte} {e : LoadError} (hf : f ∈ files)
    (he : parseImage f = .error e) (s : State) : ∃ e', loadFiles files s = .error e' := by
  induction files generalizing s with
  | nil => cases hf
  | cons g fs ih =>
    cases hg : parseImage g with
    | error e' => exact ⟨e', loadFiles_cons_error hg fs s⟩
    | ok img =>
      have hne : f ≠ g := by
        rintro rfl
        cases he.symm.trans hg
      rw [loadFiles_cons_ok hg]
      exact ih ((List.mem_cons.mp hf).resolve_left hne) _

/-- Settles O58: the words by `loadWords_read_word`, the other cells by `loadWords_read_outside`, the
files by `loadFiles_of_parse`. -/
theorem loadingWritesTheWordsInOrder : Obligations.LoadingWritesTheWordsInOrder := by
  unfold Obligations.LoadingWritesTheWordsInOrder
  exact ⟨fun img s => ⟨fun k hk h => loadWords_read_word s hk h, fun a h => loadWords_read_outside s h,
    loadWords_only_memory img.words img.origin s⟩, fun files imgs s h => loadFiles_of_parse h s⟩

/-- Settles O59: `boot` of at least one file is `loadFiles` from reset, which one bad file stops. -/
theorem bootNeedsEveryImage : Obligations.BootNeedsEveryImage := by
  unfold Obligations.BootNeedsEveryImage
  refine ⟨rfl, fun files f e hf he => ?_, fun f hlen => ?_, fun files imgs hne h => ?_⟩
  · rw [boot_eq_loadFiles (List.ne_nil_of_mem hf)]
    exact loadFiles_error hf he State.reset
  · match f, hlen with
    | [], _ => rfl
    | [_], _ => rfl
    | _ :: _ :: _, hlen => exact absurd hlen (by simp)
  · rw [boot_eq_loadFiles hne]
    exact loadFiles_of_parse h State.reset

/-! ### Runs -/

theorem Inv.loadWords {s : State} (h : Inv s) (ws : List Word) (a : Word) :
    Inv (loadWords ws a s) := by
  induction ws generalizing a s with
  | nil => exact h
  | cons w ws ih =>
    have hfirst : Inv (memWrite a w s) := ⟨wf_write a w h.memory, h.oneEnd⟩
    exact ih hfirst (a + 1#16)

theorem Inv.loadFiles {files : List (List Byte)} {s t : State} (h : Inv s)
    (ht : loadFiles files s = .ok t) : Inv t := by
  induction files generalizing s with
  | nil =>
    cases ht
    exact h
  | cons f fs ih =>
    cases hf : parseImage f with
    | error e => cases (loadFiles_cons_error hf fs s).symm.trans ht
    | ok img =>
      rw [loadFiles_cons_ok hf] at ht
      exact ih (h.loadWords img.words img.origin) ht

theorem Inv.boot {files : List (List Byte)} {s : State} (hs : boot files = .ok s) : Inv s := by
  have hne : files ≠ [] := by
    rintro rfl
    cases hs
  rw [boot_eq_loadFiles hne] at hs
  exact resetMeetsInvariant.loadFiles hs

/-- Settles O12: the invariant holds when the machine starts, each step keeps it, and an append does
not touch what it speaks of. -/
theorem everyRunFromBootKeepsInvariant : Obligations.EveryRunFromBootKeepsInvariant := by
  unfold Obligations.EveryRunFromBootKeepsInvariant
  intro files s t hs hreach
  induction hreach with
  | refl => exact .boot hs
  | step _ hstep ih => exact stepKeepsInvariant _ _ ih hstep
  | key c _ ih => exact ⟨ih.memory, ih.oneEnd⟩

/-- Settles O9: a machine that is not RUNNING has no step, so only appends are left. -/
theorem stoppedMachineOnlyGainsInput : Obligations.StoppedMachineOnlyGainsInput := by
  unfold Obligations.StoppedMachineOnlyGainsInput
  intro s t hreach hstopped
  induction hreach with
  | refl => exact ⟨[], by simp⟩
  | step _ hstep ih =>
    obtain ⟨keys, rfl⟩ := ih
    exact absurd (step_next hstep).1 hstopped
  | key c _ ih =>
    obtain ⟨keys, rfl⟩ := ih
    exact ⟨keys ++ [c], by simp [State.appendKey]⟩

end Sys2Proof.Machine
end

section
/-! PROOFS. Which flag a bit of BR's mask tests, and JSRR (spec/10_state.md R19, 42_control.md R130
and R134). -/

namespace Sys2Proof.Machine

/-! ### The mask of BR -/

/-- Mask bit n tests N, z tests Z, p tests P (R19, decision D2). -/
theorem branchTaken_iff_flags (n z p : Bool) (c : Flag) : branchTaken n z p c = true ↔
    (n = true ∧ c = .neg) ∨ (z = true ∧ c = .zero) ∨ (p = true ∧ c = .pos) := by
  cases c <;> revert n z p <;> decide

theorem branchTaken_none (c : Flag) : branchTaken false false false c = false := by
  cases c <;> rfl

theorem branchTaken_all (c : Flag) : branchTaken true true true c = true := by
  cases c <;> rfl

/-- A word up to 0x01FF has no bit from bit 9 up. -/
theorem bit_of_le_01FF {w : Word} (h : w ≤ 0x01FF#16) {k : Nat} (hk : 9 ≤ k) :
    w.getLsbD k = false := by
  have hw : w.toNat < 2 ^ 9 := Nat.lt_succ_of_le h
  exact Nat.testBit_lt_two_pow (hw.trans_le (Nat.pow_le_pow_right (by omega) hk))

/-- The words up to 0x01FF are BR with the empty mask. -/
theorem decode_of_le_01FF {w : Word} (h : w ≤ 0x01FF#16) :
    decode w = .br false false false (off9Field w) := by
  have hop : w.extractLsb' 12 4 = 0x0#4 := by
    ext i hi
    rw [BitVec.getElem_extractLsb', bit_of_le_01FF h (by omega), BitVec.getElem_zero]
  rw [decode_of_opcode_br hop, bit_of_le_01FF h (by omega), bit_of_le_01FF h (by omega),
    bit_of_le_01FF h (by omega)]

/-- Settles O28: the branch condition by `branchTaken_iff_flags`; the empty mask holds for no flag, the
full one for each. -/
theorem branchMaskTestsItsFlags : Obligations.BranchMaskTestsItsFlags := by
  unfold Obligations.BranchMaskTestsItsFlags
  refine ⟨fun n z p off s => ?_, fun w s h => ?_, fun off s => ?_⟩
  · rw [exec_br]
    simp only [branchTaken_iff_flags]
    rfl
  · rw [decode_of_le_01FF h, exec_br, branchTaken_none]
    rfl
  · rw [exec_br, branchTaken_all]
    rfl

/-! ### JSRR -/

/-- Settles O31: the link comes first, and the base is read after it by `linkR7_reg`. -/
theorem jsrrResult : Obligations.JsrrResult := by
  unfold Obligations.JsrrResult
  refine ⟨fun w hop h11 => (decode_of_opcode_jsr hop).trans (if_neg (Bool.eq_false_iff.mp h11)),
    fun b s => ⟨_, exec_jsrr b s, linkR7_reg_seven s, fun hb => ?_, fun hb => ?_⟩⟩
  · rw [linkR7_reg, if_neg hb]
    exact (transfers_linkR7 s).setPc _
  · rw [linkR7_reg, if_pos hb]
    exact (transfers_linkR7 s).setPc _

end Sys2Proof.Machine
end
